-- ==== Sys2Proof/Word.lean ====
section
/-! DEFINITION. The word types of the block: every register and every data value is one unsigned byte, a single
bit is a Bool, and a host register offset has four bits (00_scope.md R9, 20_memory.md R50). -/

namespace Sys2Proof

/-- An 8-bit register or data value; bit 0 is the least significant bit (R9). -/
abbrev Byte := BitVec 8

/-- A host register offset, 0x0 to 0xF (R50). -/
abbrev Offset := BitVec 4

end Sys2Proof
end

