-- ==== Sys2Proof/Config.lean ====
section
/-! DEFINITION. What an implementation fixes and the spec leaves open: the constants of 00_scope.md R7, the named
parameters with their defaults (R7, R8, R16, 40_line_driver.md R86, 41_byte_transport.md R116, 20_memory.md R50),
and the free values, which have no body. The parameters travel in State as one record that no step writes
(log entry 1), so a statement about every state holds for every parameter value. -/

namespace Sys2Proof

/-- `ROM_BITS` (R7). -/
abbrev romBits : Nat := 64

/-- `ROM_BYTES` (R7). -/
abbrev romBytes : Nat := 8

/-- The timing record in time units TU (R86), with the command overhead `T_CMD` of R107. -/
structure Timing where
  /-- `T_RSTL`: the reset pulse, line held low. -/
  rstl : Nat
  /-- `T_PDS`: from release after reset to the presence sample. -/
  pds : Nat
  /-- `T_RSTH`: from release after reset to the end of the reset primitive. -/
  rsth : Nat
  /-- `T_SLOT`: one time slot, from its first low edge to the start of recovery. -/
  slot : Nat
  /-- `T_LOW1`: the write-1 low pulse. -/
  low1 : Nat
  /-- `T_LOW0`: the write-0 low pulse. -/
  low0 : Nat
  /-- `T_RDL`: the read slot's initiating low pulse. -/
  rdl : Nat
  /-- `T_RDS`: from the read slot's low edge to the sample. -/
  rds : Nat
  /-- `T_REC`: recovery, line released, after each slot. -/
  recovery : Nat
  /-- `T_CMD ≥ 0`: the implementation-defined command overhead (R107, 93 U6). -/
  cmd : Nat
deriving DecidableEq, Repr

/-- The parameters of the step (R7, R16, R50, R108, R116). -/
structure Params where
  /-- The timing record. -/
  timing : Timing
  /-- `TU` in nanoseconds (R108). -/
  tuNanoseconds : Nat
  /-- `SEARCH_ROM_CODE`. -/
  searchRomCode : Byte
  /-- `CODE_SKIP_ROM`. -/
  skipRomCode : Byte
  /-- `CODE_MATCH_ROM`. -/
  matchRomCode : Byte
  /-- `CODE_CONVERT_T`. -/
  convertTCode : Byte
  /-- `CODE_READ_SCRATCHPAD`. -/
  readScratchpadCode : Byte
  /-- `BLOCK_BASE`: the host address at which offset 0 is seen (R50). -/
  blockBase : Nat
deriving DecidableEq, Repr

/-- The default timing of R86. `T_CMD` has no default in the spec; 0 is the model's (DESIGN CHOICE, log entry 2). -/
def Timing.default : Timing where
  rstl := 480
  pds := 70
  rsth := 480
  slot := 60
  low1 := 6
  low0 := 60
  rdl := 6
  rds := 15
  recovery := 10
  cmd := 0

/-- The default parameters of R7, R108 and R116 (PRESUMED by the spec, log entry 20). `BLOCK_BASE` has no default in
the spec; 0 is the model's (DESIGN CHOICE, log entry 2). -/
def Params.default : Params where
  timing := Timing.default
  tuNanoseconds := 1000
  searchRomCode := 0xF0
  skipRomCode := 0xCC
  matchRomCode := 0x55
  convertTCode := 0x44
  readScratchpadCode := 0xBE
  blockBase := 0

/-- A bit the spec leaves to a free draw (44_bus_environment.md R158, 10_state.md R47), the n-th of the run; it has
no body, so nothing can be proved about its value (log entry 4). -/
opaque Config.freeBit : Nat → Bool

/-- A byte the spec leaves to a free draw (10_state.md R47), the n-th of the run (log entry 5). -/
opaque Config.freeByte : Nat → Byte

end Sys2Proof
end

