-- ==== Sys2Proof/Syntax.lean ====
section
/-! DEFINITION. The block's instructions: the ten commands of the opcode map (30_encoding.md R66,
spec/opcode_table.json), one constructor a row. No command byte carries an operand: the operand of WRITE_BIT,
WRITE_BYTE and CRC_UPDATE is DATA latched at acceptance (R69), so no constructor has a field. -/

namespace Sys2Proof

/-- One constructor per row of spec/opcode_table.json. -/
inductive Instr where
  /-- NOP, CMD 0x00 (R93). -/
  | nop
  /-- BUS_RESET, CMD 0x01 (R95). -/
  | busReset
  /-- WRITE_BIT, CMD 0x02 (R100). -/
  | writeBit
  /-- READ_BIT, CMD 0x03 (R104). -/
  | readBit
  /-- WRITE_BYTE, CMD 0x04 (R112). -/
  | writeByte
  /-- READ_BYTE, CMD 0x05 (R114). -/
  | readByte
  /-- SEARCH_FIRST, CMD 0x06 (R121). -/
  | searchFirst
  /-- SEARCH_NEXT, CMD 0x07 (R122). -/
  | searchNext
  /-- CRC_CLEAR, CMD 0x08 (R147). -/
  | crcClear
  /-- CRC_UPDATE, CMD 0x09 (R148). -/
  | crcUpdate
deriving DecidableEq, Repr

end Sys2Proof
end

