-- ==== Sys2Proof/WellFormed.lean ====
section
/-! DEFINITION. The checks on terms: a command byte (30_encoding.md R65, R68), the timing record (40_line_driver.md
R86) and the parameters. An Instr has no operand field, so every Instr is well formed as it stands. -/

namespace Sys2Proof

/-- A command byte is legal: `v[7:4] = 0` and `v[3:0] ≤ 9` (R68). -/
def commandByteWf (v : Byte) : Bool :=
  v.extractLsb' 4 4 == 0#4 && decide ((v.extractLsb' 0 4).toNat ≤ 9)

/-- The bounds on the timing record that a model may assume (R86). -/
def Timing.wf (t : Timing) : Bool :=
  decide (480 ≤ t.rstl) && decide (60 ≤ t.pds) && decide (t.pds ≤ 240) && decide (t.pds ≤ t.rsth) &&
  decide (1 ≤ t.low1) && decide (t.low1 < t.rds) && decide (1 ≤ t.rdl) && decide (t.rdl < t.rds) &&
  decide (t.rds ≤ t.slot) && decide (t.low0 ≤ t.slot) && decide (1 ≤ t.recovery)

/-- The parameters are legal: the timing bounds of R86 hold, and the three ROM command bytes that the
conforming device tells apart (44_bus_environment.md R160) are three different bytes (DESIGN CHOICE, log entry 13). -/
def Params.wf (p : Params) : Bool :=
  p.timing.wf && p.searchRomCode != p.skipRomCode && p.searchRomCode != p.matchRomCode &&
  p.skipRomCode != p.matchRomCode

end Sys2Proof
end

