-- ==== Sys2Proof/Decode.lean ====
section
/-! DEFINITION. The decoder of command bytes, total on all 256 values and rejecting by name (30_encoding.md R65 to
R68, R71), and the encoder, written from the same opcode map. -/

namespace Sys2Proof

/-- Why a command byte is no command (R67, R68, R71). Both behave as illegal: ERR.ILLCMD is set. -/
inductive DecodeError where
  /-- 0x10 to 0xFF: the field Z = CMD[7:4] is not zero. -/
  | illegalZ
  /-- 0x0A to 0x0F: Z = 0 and OP is a reserved code. -/
  | reservedOp
deriving DecidableEq, Repr

/-- The opcode map read from OP = CMD[3:0] (R66). -/
def decodeOp (op : BitVec 4) : Except DecodeError Instr :=
  match op.toNat with
  | 0x0 => .ok .nop
  | 0x1 => .ok .busReset
  | 0x2 => .ok .writeBit
  | 0x3 => .ok .readBit
  | 0x4 => .ok .writeByte
  | 0x5 => .ok .readByte
  | 0x6 => .ok .searchFirst
  | 0x7 => .ok .searchNext
  | 0x8 => .ok .crcClear
  | 0x9 => .ok .crcUpdate
  | _ => .error .reservedOp

/-- The decoder (R68): Z must be 0, then OP selects the command. -/
def decode (v : Byte) : Except DecodeError Instr :=
  if v.extractLsb' 4 4 = 0#4 then decodeOp (v.extractLsb' 0 4) else .error .illegalZ

/-- The command code OP of an instruction (R66). -/
def opCode : Instr → BitVec 4
  | .nop => 0x0
  | .busReset => 0x1
  | .writeBit => 0x2
  | .readBit => 0x3
  | .writeByte => 0x4
  | .readByte => 0x5
  | .searchFirst => 0x6
  | .searchNext => 0x7
  | .crcClear => 0x8
  | .crcUpdate => 0x9

/-- The encoder: the one byte `0000oooo` of an instruction (R65). -/
def encode (i : Instr) : Byte := 0x0#4 ++ opCode i

/-- The instruction the decoder reads from a word numbered as spec/opcode_table.json numbers it: every command is
one byte (R72), so the word is that byte, and a word with a bit above bit 7 is no command. -/
def decodeTableWord (nbits w : Nat) : Option Instr :=
  if w % 2 ^ nbits < 256 then
    match decode (BitVec.ofNat 8 (w % 2 ^ nbits)) with
    | .ok i => some i
    | .error _ => none
  else none

end Sys2Proof
end

