-- ==== Sys2Proof/Machine/State.lean ====
section
/-! DEFINITION. The state, as plain data: the block's registers and internal state (10_state.md R20 to R45), its line
port and time base (R37, R38), the bus environment (44_bus_environment.md R155 to R169), the host's pending accesses
(R46), the parameters (00_scope.md R16), and the model's own counters for free draws. The reasons a step can stop, and
the state after reset. -/

namespace Sys2Proof.Machine

/-- Why a step stops with a fault. The block itself has no fault state (R48): the one fault is about a host access
that does not reach the block. -/
inductive Fault where
  /-- Raised by `step` for a host access outside `BLOCK_BASE` to `BLOCK_BASE + 15`: no register of the block is
  there (R50). Safe: the model stops where the platform does something the spec does not give. -/
  | outsideBlock (addr : Nat)
deriving DecidableEq, Repr

/-- Why the model gives a step no meaning. -/
inductive Refusal where
  /-- An instruction that has no meaning yet; raised by `exec` only. Safe. -/
  | notModelled (mnemonic : String)
  /-- Raised by `step` for a host access that is not one byte wide: "a model refuses any access of another width"
  (R53). Safe. -/
  | accessWidth (width : Nat)
deriving DecidableEq, Repr

/-- `current_rom`: the eight bytes ROM0..ROM7, byte 0 first (R31). -/
abbrev RomCode := Vector Byte 8

/-- A command accepted and not completed: its code and the operand, DATA latched at acceptance (R35). -/
structure Pending where
  /-- The command. -/
  op : Instr
  /-- DATA at acceptance. -/
  operand : Byte
deriving DecidableEq, Repr

/-- Pass-local state of the search engine (R36): meaningful inside one search pass only. -/
structure PassLocal where
  /-- `s.id_bit_number`, 1 to 64 inside a pass. -/
  idBitNumber : Nat
  /-- `s.last_zero`, 0 to 64. -/
  lastZero : Nat
  /-- `id_bit` of the current position. -/
  idBit : Bool
  /-- `cmp_id_bit` of the current position. -/
  cmpIdBit : Bool
  /-- `search_direction` of the current position. -/
  searchDirection : Bool
deriving DecidableEq, Repr

/-- One action of the line driver (00_scope.md R11). -/
inductive LineOp where
  /-- `LineLow()`. -/
  | low
  /-- `LineRelease()`. -/
  | release
  /-- `Wait(t)`. -/
  | wait (t : Nat)
  /-- `LineSample()`. -/
  | sample
deriving DecidableEq, Repr

/-- One primitive on the line: what the block drove and, in a reset or a read slot, what it sampled (R88 to R91). -/
inductive LineActivity where
  /-- A reset pulse with its presence result. -/
  | reset (presence : Bool)
  /-- A write slot of the bit sent. -/
  | writeSlot (bit : Bool)
  /-- A read slot with the bit sampled. -/
  | readSlot (bit : Bool)
deriving DecidableEq, Repr

/-- The phase of a device inside one search position (R159). -/
inductive SearchPhase where
  /-- The device sends its bit in the next read slot. -/
  | sendBit
  /-- The device sends the complement of its bit in the next read slot. -/
  | sendCmp
  /-- The device takes the direction from the next write slot. -/
  | recvDir
deriving DecidableEq, Repr

/-- The session state of a conforming device (R159). -/
inductive DeviceMode where
  /-- Waiting for a reset. -/
  | idle
  /-- Receiving the ROM command byte: `k` bits so far, value `v`. -/
  | romCmd (k : Nat) (v : Byte)
  /-- Receiving the MATCH_ROM address: `k` bits so far, `ok` = all matched. -/
  | matchRom (k : Nat) (ok : Bool)
  /-- At ROM position `n` of a search, `cand` = still a candidate. -/
  | search (n : Nat) (phase : SearchPhase) (cand : Bool)
  /-- Addressed; its function traffic is opaque. -/
  | selected
  /-- Silent until the next reset. -/
  | deselected
  /-- Unknown until the next reset pulse: after a block reset during a command (R192, 93 U8), or after a write slot
  that the device model gives no effect (R203, 92 D42). The name is the model's (log entry 8). -/
  | unknown
deriving DecidableEq, Repr

/-- A conforming device: its constant ROM code and its session state (R159). -/
structure Device where
  /-- `d.rom`. -/
  rom : RomCode
  /-- `d.mode`. -/
  mode : DeviceMode
deriving DecidableEq, Repr

/-- The bus environment: the agent on the other side of the line (R155, R157). -/
inductive Env where
  /-- The unconstrained oracle (R158). -/
  | oracle
  /-- A finite set of conforming devices (R159); the empty list is the empty bus (log entry 23). -/
  | bus (devices : List Device)
  /-- The loopback stub with its queue of written bits, oldest first (R168). -/
  | loopback (queue : List Bool)
  /-- A line held low by a short (R169). -/
  | stuckLow
deriving DecidableEq, Repr

/-- The line port of the block with what stands behind it. Only the three transactions of R94 act on it. -/
structure Line where
  /-- `s.drive_low`: 1 = the line driver pulls the line low (R37). -/
  driveLow : Bool
  /-- The time base: TU elapsed in waits and command overhead (R38, log entry 19). -/
  timebase : Nat
  /-- The primitives the block has made on the line, newest first (the model's own record of the port's output, log
  entry 6). -/
  activity : List LineActivity
  /-- The environment. -/
  env : Env
  /-- Sampled values that the outside supplies to the next free draws of the environment, in order (R158). -/
  draws : List Bool
  /-- How many free draws `Config.freeBit` has answered (the model's own, log entry 4). -/
  drawCount : Nat
deriving DecidableEq, Repr

/-- What the outside can change of the environment (42_rom_search.md R141, R157). A device that comes starts in its
initial mode (R159); the devices that stay keep theirs. -/
inductive EnvChange where
  /-- The unconstrained oracle stands on the line from now on (R158). -/
  | oracle
  /-- A bus of new devices with these ROM codes (R159). -/
  | bus (roms : List RomCode)
  /-- A device with this ROM code joins the bus. -/
  | join (rom : RomCode)
  /-- The device at index `i` of the bus, counted from 0, leaves it. -/
  | leave (i : Nat)
  /-- A loopback stub that has recorded nothing (R168). -/
  | loopback
  /-- The line is held low by a short (R169). -/
  | stuckLow
deriving DecidableEq, Repr

/-- What the outside does next: one input a step, taken in order. The list says how host, block and environment
interleave (R46, log entry 3). -/
inductive Input where
  /-- `MemWrite`: a host write of `width` bytes at a host address (R46(a)). -/
  | write (addr width : Nat) (value : Byte)
  /-- `MemRead`: a host read of `width` bytes at a host address (R46(b)). -/
  | read (addr width : Nat)
  /-- The host repeats reads of STATUS until BUSY = 0 (30_encoding.md R73). -/
  | poll
  /-- The block takes its step, if it has one, before the next input. -/
  | blockTurn
  /-- The block's reset input is at this level from now on: true = asserted (R190). -/
  | resetLine (asserted : Bool)
  /-- The environment changes: devices come or go, a fault appears (R141, R157). -/
  | environment (c : EnvChange)
deriving DecidableEq, Repr

/-- The whole state. -/
structure State where
  /-- DATA (offset 0x2). -/
  data : Byte
  /-- FILTER (offset 0x4). -/
  filter : Byte
  /-- FCTRL.FILTER_EN (offset 0x5 bit 0). -/
  filterEn : Bool
  /-- CRC (offset 0x6). -/
  crc : Byte
  /-- ERR.ILLCMD (offset 0x7 bit 0). -/
  illcmd : Bool
  /-- ERR.OVERRUN (offset 0x7 bit 1). -/
  overrun : Bool
  /-- STATUS.PRESENCE. -/
  presence : Bool
  /-- STATUS.RESULT. -/
  result : Bool
  /-- STATUS.CRC_OK. -/
  crcOk : Bool
  /-- STATUS.SERR. -/
  serr : Bool
  /-- LD (offset 0x3): `last_discrepancy`, 0 to 64. -/
  ld : Nat
  /-- `s.ldf`: `last_device_flag`, mirrored in STATUS.LDF. -/
  ldf : Bool
  /-- ROM0..ROM7 (offsets 0x8 to 0xF). -/
  rom : RomCode
  /-- `s.pending`; STATUS.BUSY = 1 exactly when it holds a command. -/
  pending : Option Pending
  /-- The search engine's pass-local state (R36). -/
  pass : PassLocal
  /-- The level of the block's reset input: true = asserted (R190, log entry 18). -/
  resetPin : Bool
  /-- The line port, the time base and the environment. -/
  line : Line
  /-- What the outside does next, in order. -/
  inputs : List Input
  /-- The bytes host reads have returned, newest first (the model's own, log entry 17). -/
  responses : List Byte
  /-- How many host reads `Config.freeByte` has answered (the model's own, log entry 5). -/
  readDraws : Nat
  /-- The parameters of the step; no step writes them (R16). -/
  params : Params
deriving DecidableEq, Repr

/-- The line port after reset: released (R43), before an unconstrained environment (R158, log entry 21). -/
def Line.reset : Line where
  driveLow := false
  timebase := 0
  activity := []
  env := .oracle
  draws := []
  drawCount := 0

/-- Pass-local state has no reset value (R36); zero is the model's (DESIGN CHOICE, log entry 7). -/
def PassLocal.reset : PassLocal where
  idBitNumber := 0
  lastZero := 0
  idBit := false
  cmpIdBit := false
  searchDirection := false

/-- The machine right after reset (R21, R43, R191). -/
def State.reset : State where
  data := 0x00
  filter := 0x00
  filterEn := false
  crc := 0x00
  illcmd := false
  overrun := false
  presence := false
  result := false
  crcOk := false
  serr := false
  ld := 0
  ldf := false
  rom := Vector.replicate 8 0x00
  pending := none
  pass := PassLocal.reset
  resetPin := false
  line := Line.reset
  inputs := []
  responses := []
  readDraws := 0
  params := Params.default

end Sys2Proof.Machine
end

