-- ==== Sys2Proof/Machine/Bits.lean ====
section
/-! DEFINITION. Bit fields and the block's arithmetic (00_scope.md R9, R10, R17): single bits of a byte, the 64 positions
of a ROM code, and the CRC-8 function (43_crc8.md R145, R146, R151). -/

namespace Sys2Proof.Machine

/-- The bit indices of a byte in the order the line and the CRC take them: 0 to 7, upward (R110, R145). -/
def bitIndices : List Nat := [0, 1, 2, 3, 4, 5, 6, 7]

/-- `v[i] <- b`: bit `i` of a byte. -/
def setBit (v : Byte) (i : Nat) (b : Bool) : Byte :=
  if b then v ||| (1#8 <<< i) else v &&& ~~~(1#8 <<< i)

/-- `zext_8(b)` of one bit (R9). -/
def zextBit (b : Bool) : Byte := if b then 0x01 else 0x00

/-- `ROMBIT(r, n)`: bit `(n-1) mod 8` of byte `(n-1) div 8` (R10). -/
def romBit (r : RomCode) (n : Nat) : Bool :=
  (r[(n - 1) / 8]?.getD 0).getLsbD ((n - 1) % 8)

/-- `SETROMBIT(r, n, b)` (R10). -/
def setRomBit (r : RomCode) (n : Nat) (b : Bool) : RomCode :=
  r.setIfInBounds ((n - 1) / 8) (setBit (r[(n - 1) / 8]?.getD 0) ((n - 1) % 8) b)

/-- One bit of the CRC-8 update: mix, shift right, feed back 0x8C (R145). -/
def crcBit (c : Byte) (b : Bool) : Byte :=
  if c.getLsbD 0 != b then (c >>> 1) ^^^ 0x8C else c >>> 1

/-- `crc8_step(c, b)`: one byte, bit 0 first (R145). -/
def crc8Step (c b : Byte) : Byte :=
  bitIndices.foldl (fun acc i => crcBit acc (b.getLsbD i)) c

/-- `crc8(bs)`: the fold from the seed 0 (R146). -/
def crc8 (bs : List Byte) : Byte := bs.foldl crc8Step 0x00

/-- `valid(data) := crc8(data[0..n-1)) = data[n-1]`: the last byte is the check byte of the bytes before it (R151). -/
def frameValid (bs : List Byte) : Bool := crc8 bs.dropLast == bs.getLastD 0

/-- `crc8(ROM[0..7)) = ROM[7]` (R123 step 6, R153). -/
def romValid (r : RomCode) : Bool := crc8 (r.toList.take 7) == r[7]

end Sys2Proof.Machine
end

