-- ==== Sys2Proof/Machine/Environment.lean ====
section
/-! DEFINITION. The bus environment (44_bus_environment.md): the device side of a conforming device's session (R159 to
R163), and the three transactions (R155) on each environment: the oracle (R158), a bus of conforming devices, the
loopback stub (R168) and a line stuck low (R169). -/

namespace Sys2Proof.Machine

/-- The next free draw: the outside's next supplied value, or else a value nothing constrains (R158). -/
def nextDraw (l : Line) : Bool × Line :=
  match l.draws with
  | b :: rest => (b, { l with draws := rest })
  | [] => (Config.freeBit l.drawCount, { l with drawCount := l.drawCount + 1 })

/-- The mode a complete ROM command byte puts a device in (R160). -/
def romCommandMode (p : Params) (v : Byte) : DeviceMode :=
  if v = p.skipRomCode then .selected
  else if v = p.matchRomCode then .matchRom 0 true
  else if v = p.searchRomCode then .search 1 .sendBit true
  else .deselected

/-- A device's mode after a write slot of value `b` (R160, R161, R163). A write slot where a search has a candidate
send is traffic the spec gives no effect: the device is unknown until the next reset (log entry 8). A device that is no
candidate sends nothing in any case (R161), so it stays as it is. -/
def modeAfterWrite (p : Params) (rom : RomCode) (b : Bool) : DeviceMode → DeviceMode
  | .idle => .idle
  | .romCmd k v =>
    if k + 1 < 8 then .romCmd (k + 1) (setBit v k b) else romCommandMode p (setBit v k b)
  | .matchRom k ok =>
    if k + 1 < romBits then .matchRom (k + 1) (ok && b == romBit rom (k + 1))
    else if ok && b == romBit rom (k + 1) then .selected else .deselected
  | .search n .recvDir cand =>
    if n < romBits then .search (n + 1) .sendBit (cand && b == romBit rom n)
    else if cand && b == romBit rom n then .selected else .deselected
  | .search _ .sendBit true => .unknown
  | .search _ .sendCmp true => .unknown
  | .search n .sendBit false => .search n .sendBit false
  | .search n .sendCmp false => .search n .sendCmp false
  | .selected => .selected
  | .deselected => .deselected
  | .unknown => .unknown

/-- A device's mode after a read slot (R161): in a sending phase it goes on to the next one, candidate or not (DEDUCED,
log entry 16); everywhere else it sends nothing and stays as it is (R164). -/
def modeAfterRead : DeviceMode → DeviceMode
  | .search n .sendBit cand => .search n .sendCmp cand
  | .search n .sendCmp cand => .search n .recvDir cand
  | .search n .recvDir cand => .search n .recvDir cand
  | .idle => .idle
  | .romCmd k v => .romCmd k v
  | .matchRom k ok => .matchRom k ok
  | .selected => .selected
  | .deselected => .deselected
  | .unknown => .unknown

/-- The device after a reset pulse: every session ends (R162). -/
def Device.afterReset (d : Device) : Device := { d with mode := .romCmd 0 0x00 }

/-- The device after a write slot. -/
def Device.afterWrite (p : Params) (b : Bool) (d : Device) : Device :=
  { d with mode := modeAfterWrite p d.rom b d.mode }

/-- The device after a read slot. -/
def Device.afterRead (d : Device) : Device := { d with mode := modeAfterRead d.mode }

/-- The device after a block reset in the middle of a command (R192, U8). -/
def Device.afterLostSession (d : Device) : Device := { d with mode := .unknown }

/-- The level a device leaves the line at in a read slot: false = it holds the line low (R103, R161). A device that
sends nothing leaves it high. -/
def Device.level (d : Device) : Bool :=
  match d.mode with
  | .search n .sendBit true => romBit d.rom n
  | .search n .sendCmp true => !romBit d.rom n
  | .search _ .sendBit false => true
  | .search _ .sendCmp false => true
  | .search _ .recvDir _ => true
  | .idle => true
  | .romCmd _ _ => true
  | .matchRom _ _ => true
  | .selected => true
  | .deselected => true
  | .unknown => true

/-- Whether what a device sends in a read slot is a free draw: function traffic of a selected device (R160, U7) or an
unknown device (U8). -/
def Device.sendsFree (d : Device) : Bool :=
  match d.mode with
  | .selected => true
  | .unknown => true
  | .search _ _ _ => false
  | .idle => false
  | .romCmd _ _ => false
  | .matchRom _ _ => false
  | .deselected => false

/-- The free part of a read slot on a bus: one draw if some device sends freely, else the line stays high
(DESIGN CHOICE, log entry 15). -/
def freeLevel (ds : List Device) (l : Line) : Bool × Line :=
  if ds.any Device.sendsFree then nextDraw l else (true, l)

/-- The environment's answer to `BusReset()`: whether a device asserts presence at the sample (R158, R162, R169). The
loopback stub's answer is not stated, so it is a free draw (log entry 9). -/
def envReset (l : Line) : Bool × Line :=
  match l.env with
  | .oracle => nextDraw l
  | .bus ds => (!ds.isEmpty, { l with env := .bus (ds.map Device.afterReset) })
  | .loopback _ => nextDraw l
  | .stuckLow => (true, l)

/-- The environment's side of `WriteBit(b)` (R158, R163, R168). -/
def envWrite (p : Params) (b : Bool) (l : Line) : Line :=
  match l.env with
  | .oracle => l
  | .bus ds => { l with env := .bus (ds.map (Device.afterWrite p b)) }
  | .loopback q => { l with env := .loopback (q ++ [b]) }
  | .stuckLow => l

/-- The environment's answer to `ReadBit()`: the level it leaves the line at (R158, R164, R168, R169). -/
def envRead (l : Line) : Bool × Line :=
  match l.env with
  | .oracle => nextDraw l
  | .bus ds =>
    ((freeLevel ds l).1 && ds.all Device.level,
      { (freeLevel ds l).2 with env := .bus (ds.map Device.afterRead) })
  | .loopback [] => (true, l)
  | .loopback (b :: q) => (b, { l with env := .loopback q })
  | .stuckLow => (false, l)

/-- A device before anything happened on its line: its initial mode is idle (R159). -/
def Device.initial (rom : RomCode) : Device := { rom := rom, mode := .idle }

/-- The environment after a change from outside (R141, R157). Only a bus has devices that join or leave (log entry
23). -/
def Env.change (c : EnvChange) (e : Env) : Env :=
  match c with
  | .oracle => .oracle
  | .bus roms => .bus (roms.map Device.initial)
  | .join rom =>
    match e with
    | .bus ds => .bus (ds ++ [Device.initial rom])
    | .oracle => .oracle
    | .loopback q => .loopback q
    | .stuckLow => .stuckLow
  | .leave i =>
    match e with
    | .bus ds => .bus (ds.eraseIdx i)
    | .oracle => .oracle
    | .loopback q => .loopback q
    | .stuckLow => .stuckLow
  | .loopback => .loopback []
  | .stuckLow => .stuckLow

/-- The environment after a block reset during a command: the session state of every device is unknown (R192). -/
def Env.afterLostSession : Env → Env
  | .oracle => .oracle
  | .bus ds => .bus (ds.map Device.afterLostSession)
  | .loopback q => .loopback q
  | .stuckLow => .stuckLow

end Sys2Proof.Machine
end

