-- ==== Sys2Proof/Machine/Ops.lean ====
section
/-! DEFINITION. The shared operations: the line driver's waveforms (40_line_driver.md R88 to R91) run against the
wired-AND line (R85), the bit and byte primitives (R94, 41_byte_transport.md R111, R113), and the completion of a
command (10_state.md R46(c)). The block takes no exception and has no trap mechanism (60_exceptions.md R170, R179), so
there is no exception entry and no return from one; the one recording of an error is `flag(NAME)` (00_scope.md R11),
which stands in Flags.lean. -/

namespace Sys2Proof.Machine

/-- The reset and presence waveform (R88). -/
def resetWave (t : Timing) : List LineOp :=
  [.low, .wait t.rstl, .release, .wait t.pds, .sample, .wait (t.rsth - t.pds)]

/-- The write slot waveforms: write-1 (R89) and write-0 (R90). -/
def writeWave (t : Timing) (b : Bool) : List LineOp :=
  if b then [.low, .wait t.low1, .release, .wait (t.slot - t.low1), .wait t.recovery]
  else [.low, .wait t.low0, .release, .wait (t.slot - t.low0), .wait t.recovery]

/-- The read slot waveform: release first, then sample (R91). -/
def readWave (t : Timing) : List LineOp :=
  [.low, .wait t.rdl, .release, .wait (t.rds - t.rdl), .sample, .wait (t.slot - t.rds), .wait t.recovery]

/-- The waveform behind one recorded primitive. -/
def activityWave (t : Timing) : LineActivity → List LineOp
  | .reset _ => resetWave t
  | .writeSlot b => writeWave t b
  | .readSlot _ => readWave t

/-- The time a waveform takes. -/
def waveTime : List LineOp → Nat
  | [] => 0
  | .wait t :: ops => t + waveTime ops
  | .low :: ops => waveTime ops
  | .release :: ops => waveTime ops
  | .sample :: ops => waveTime ops

/-- One action of the line driver on a line that the devices leave at `level`. The sampled level is the wired-AND of
the master and the devices (R85). -/
def lineStep (level : Bool) (x : Bool × Line) : LineOp → Bool × Line
  | .low => (x.1, { x.2 with driveLow := true })
  | .release => (x.1, { x.2 with driveLow := false })
  | .wait t => (x.1, { x.2 with timebase := x.2.timebase + t })
  | .sample => (level && !x.2.driveLow, x.2)

/-- A waveform run to its end (R87); the result is its last sample, high where it takes none. The
devices' level is one for the whole waveform (DEDUCED, log entry 22). -/
def runWave (level : Bool) (ops : List LineOp) (l : Line) : Bool × Line :=
  ops.foldl (lineStep level) (true, l)

/-- The record of a primitive on the line port. -/
def Line.record (a : LineActivity) (l : Line) : Line := { l with activity := a :: l.activity }

/-- `BusReset()`: presence = the line is low at the sample (R88, R96). -/
def busReset (p : Params) (l : Line) : Bool × Line :=
  let e := envReset l
  let w := runWave (!e.1) (resetWave p.timing) e.2
  (!w.1, w.2.record (.reset (!w.1)))

/-- `WriteBit(b)`: the master does not sample (R89, R90, R99, R102). -/
def lineWriteBit (p : Params) (b : Bool) (l : Line) : Line :=
  (runWave true (writeWave p.timing b) (envWrite p b l)).2.record (.writeSlot b)

/-- `ReadBit()`: the level sampled in the slot (R91, R103). -/
def lineReadBit (p : Params) (l : Line) : Bool × Line :=
  let e := envRead l
  let w := runWave e.1 (readWave p.timing) e.2
  (w.1, w.2.record (.readSlot w.1))

/-- `WriteByte(v)`: eight write slots, bit 0 first (R111). -/
def lineWriteByte (p : Params) (v : Byte) (l : Line) : Line :=
  bitIndices.foldl (fun l i => lineWriteBit p (v.getLsbD i) l) l

/-- One step of `ReadByte()`: the next bit read becomes bit `i` (R113). -/
def readByteStep (p : Params) (x : Byte × Line) (i : Nat) : Byte × Line :=
  (setBit x.1 i (lineReadBit p x.2).1, (lineReadBit p x.2).2)

/-- `ReadByte()`: eight read slots, the first bit read is bit 0 (R113). -/
def lineReadByte (p : Params) (l : Line) : Byte × Line :=
  bitIndices.foldl (readByteStep p) (0x00, l)

/-- The line as a command leaves it: only the line port and the environment behind it change. -/
def State.setLine (s : State) (l : Line) : State := { s with line := l }

/-- The inputs still to come, after one was taken. -/
def State.setInputs (s : State) (is : List Input) : State := { s with inputs := is }

/-- The environment changes from outside, between two steps of the block (R141, R157). -/
def State.changeEnv (s : State) (c : EnvChange) : State :=
  { s with line := { s.line with env := s.line.env.change c } }

/-- The command overhead `T_CMD` passes (R107). -/
def Line.overhead (p : Params) (l : Line) : Line := { l with timebase := l.timebase + p.timing.cmd }

/-- Completion of a command: BUSY clears (R46(c)); the overhead `T_CMD` has passed. -/
def State.complete (s : State) : State :=
  { s with pending := none, line := s.line.overhead s.params }

end Sys2Proof.Machine
end

