-- ==== Sys2Proof/Machine/Operands.lean ====
section
/-! DEFINITION. The operand forms of the commands (30_encoding.md R69) and the latching of the operand when a command is
accepted (10_state.md R35, R46). -/

namespace Sys2Proof.Machine

/-- Acceptance of a command: it becomes pending with DATA latched as its operand (R35, R68). -/
def State.accept (s : State) (i : Instr) : State :=
  { s with pending := some { op := i, operand := s.data } }

/-- The latched operand. In a state where no command is pending, a command is taken as accepted at once, so its
operand is DATA (DEDUCED, log entry 10). -/
def State.operand (s : State) : Byte :=
  match s.pending with
  | some p => p.operand
  | none => s.data

/-- The operand of WRITE_BIT: bit 0 of the latched byte; bits 7:1 are ignored (R69, R101). -/
def State.operandBit (s : State) : Bool := s.operand.getLsbD 0

end Sys2Proof.Machine
end

