-- ==== Sys2Proof/Machine/Flags.lean ====
section
/-! DEFINITION. The flags: STATUS (10_state.md R23) with the unstored FAM_MATCH (R39), ERR with its sticky bits and its
write-1-to-clear (R30), and the error conditions that the flags report (60_exceptions.md R171). -/

namespace Sys2Proof.Machine

/-- BUSY: a command is pending (R35). -/
def State.busy (s : State) : Bool := s.pending.isSome

/-- FAM_MATCH: `(FCTRL.FILTER_EN = 0) or (ROM0 = FILTER)`, computed at every read (R39). -/
def State.famMatch (s : State) : Bool := !s.filterEn || s.rom[0] == s.filter

/-- A flag at its bit of a register byte. -/
def flagAt (i : Nat) (b : Bool) : Byte := if b then 1#8 <<< i else 0

/-- STATUS as a byte (R23): bit 7 reads 0. -/
def State.statusByte (s : State) : Byte :=
  flagAt 0 s.busy ||| flagAt 1 s.presence ||| flagAt 2 s.result ||| flagAt 3 s.crcOk |||
  flagAt 4 s.ldf ||| flagAt 5 s.famMatch ||| flagAt 6 s.serr

/-- STATUS while BUSY: bit 0 is 1, bit 7 is 0 and bits 6:1 are those of a free byte (R47). -/
def busyStatusByte (free : Byte) : Byte := (free &&& 0x7E) ||| 0x01

/-- FCTRL as a byte: bits 7:1 read 0 (R28, R32). -/
def State.fctrlByte (s : State) : Byte := flagAt 0 s.filterEn

/-- ERR as a byte: bits 7:2 read 0 (R30, R32). -/
def State.errByte (s : State) : Byte := flagAt 0 s.illcmd ||| flagAt 1 s.overrun

/-- `flag(ILLCMD)`: CMD was written with a reserved or illegal code (R30, R68). -/
def State.flagIllcmd (s : State) : State := { s with illcmd := true }

/-- `flag(OVERRUN)`: a register other than ERR was written while BUSY (R30, R200). -/
def State.flagOverrun (s : State) : State := { s with overrun := true }

/-- A host write of ERR: 1 clears a bit, 0 leaves it (R30). -/
def State.clearErr (s : State) (v : Byte) : State :=
  { s with illcmd := s.illcmd && !v.getLsbD 0, overrun := s.overrun && !v.getLsbD 1 }

/-- The outcome of a search command, as the codes of R171 name it. -/
inductive SearchReport where
  /-- A device was found and its code passed the CRC. -/
  | found
  /-- E1 NO_PRESENCE. -/
  | noPresence
  /-- E2 SEARCH_DATA_ERROR. -/
  | searchDataError
  /-- E3 ROM_CRC_MISMATCH. -/
  | romCrcMismatch
  /-- EXHAUSTED: not an error. -/
  | exhausted
deriving DecidableEq, Repr

/-- The condition that STATUS reports after a search command (R171, 42_rom_search.md R135). RESULT = 0 with LDF = 1 is
only left by the step 1 exit, so LDF is read before SERR and PRESENCE (DEDUCED from R135, log entry 11). -/
def State.searchReport (s : State) : SearchReport :=
  if s.result then (if s.crcOk then .found else .romCrcMismatch)
  else if s.ldf then .exhausted
  else if s.serr then .searchDataError
  else .noPresence

/-- E1 after BUS_RESET: PRESENCE = 0 and RESULT = 0 (R171). -/
def State.reportsNoPresence (s : State) : Bool := !s.presence && !s.result

/-- E4 DATA_CRC_MISMATCH after the last CRC_UPDATE of a frame: RESULT = 0 (R152, R171). -/
def State.reportsDataCrcMismatch (s : State) : Bool := !s.result

end Sys2Proof.Machine
end

