-- ==== Sys2Proof/Machine/Registers.lean ====
section
/-! DEFINITION. The host register space (20_memory.md R50 to R58): the sixteen registers by offset (10_state.md R21), and
the host's one-byte reads and writes of them (R46(a), R46(b), R47). -/

namespace Sys2Proof.Machine

/-- The host registers (R21). -/
inductive Reg where
  /-- Offset 0x0. -/
  | cmd
  /-- Offset 0x1. -/
  | status
  /-- Offset 0x2. -/
  | data
  /-- Offset 0x3. -/
  | ld
  /-- Offset 0x4. -/
  | filter
  /-- Offset 0x5. -/
  | fctrl
  /-- Offset 0x6. -/
  | crc
  /-- Offset 0x7. -/
  | err
  /-- Offset 0x8 + k. -/
  | rom (k : Fin 8)
deriving DecidableEq, Repr

/-- The register at an offset: every offset is mapped (R21, R50). -/
def regAt (off : Offset) : Reg :=
  match off.toNat with
  | 0x0 => .cmd
  | 0x1 => .status
  | 0x2 => .data
  | 0x3 => .ld
  | 0x4 => .filter
  | 0x5 => .fctrl
  | 0x6 => .crc
  | 0x7 => .err
  | n => .rom (Fin.ofNat 8 (n - 8))

/-- The offset of a register (R21). -/
def Reg.offset : Reg → Offset
  | .cmd => 0x0
  | .status => 0x1
  | .data => 0x2
  | .ld => 0x3
  | .filter => 0x4
  | .fctrl => 0x5
  | .crc => 0x6
  | .err => 0x7
  | .rom k => BitVec.ofNat 4 (8 + k.val)

/-- The offset a host address selects: the block answers `BLOCK_BASE` to `BLOCK_BASE + 15` (R50). -/
def hostOffset (p : Params) (addr : Nat) : Option Offset :=
  if p.blockBase ≤ addr ∧ addr < p.blockBase + 16 then some (BitVec.ofNat 4 (addr - p.blockBase)) else none

/-- The host address of a register (R50). -/
def hostAddr (p : Params) (r : Reg) : Nat := p.blockBase + r.offset.toNat

/-- The value of a register while BUSY = 0 (R21 to R31). -/
def State.regValue (s : State) : Reg → Byte
  | .cmd => 0x00
  | .status => s.statusByte
  | .data => s.data
  | .ld => BitVec.ofNat 8 s.ld
  | .filter => s.filter
  | .fctrl => s.fctrlByte
  | .crc => s.crc
  | .err => s.errByte
  | .rom k => s.rom[k]

/-- The value of a register while BUSY = 1: CMD, FILTER, FCTRL and ERR read exactly, STATUS has BUSY = 1, and
everything else is what a free byte makes it (R47). -/
def State.busyRegValue (s : State) (free : Byte) : Reg → Byte
  | .cmd => 0x00
  | .status => busyStatusByte free
  | .data => free
  | .ld => free
  | .filter => s.filter
  | .fctrl => s.fctrlByte
  | .crc => free
  | .err => s.errByte
  | .rom _ => free

/-- What a host read of a register returns (R46(b), R47). -/
def State.readValue (s : State) (r : Reg) : Byte :=
  if s.busy then s.busyRegValue (Config.freeByte s.readDraws) r else s.regValue r

/-- A host read: the value goes to the host; the block's state does not change (R56). A read while BUSY uses up one
free draw. -/
def State.hostRead (s : State) (r : Reg) : State :=
  { s with
    responses := s.readValue r :: s.responses
    readDraws := if s.busy then s.readDraws + 1 else s.readDraws }

/-- A host write of CMD accepted while idle (R68): a legal code becomes pending, any other sets ILLCMD. -/
def State.writeCmd (s : State) (v : Byte) : State :=
  match decode v with
  | .ok i => s.accept i
  | .error _ => s.flagIllcmd

/-- The register effect of a host write while idle (R21 to R32): read-only registers ignore it. -/
def State.regWrite (s : State) (r : Reg) (v : Byte) : State :=
  match r with
  | .cmd => s.writeCmd v
  | .status => s
  | .data => { s with data := v }
  | .ld => s
  | .filter => { s with filter := v }
  | .fctrl => { s with filterEn := v.getLsbD 0 }
  | .crc => s
  | .err => s.clearErr v
  | .rom _ => s

/-- A host write (R46(a), R200): while BUSY every register but ERR refuses it and OVERRUN is set. While the reset
input is asserted every register holds its reset value, so a write has no effect (R190). -/
def State.hostWrite (s : State) (r : Reg) (v : Byte) : State :=
  if s.resetPin then s
  else if s.busy && r != .err then s.flagOverrun
  else s.regWrite r v

end Sys2Proof.Machine
end

