-- ==== Sys2Proof/Machine/BlockReset.lean ====
section
/-! DEFINITION. The block reset (70_reset_and_hazards.md R190, R192). -/

namespace Sys2Proof.Machine

/-- The line port through a block reset: released, with no line activity (R190, D40). Devices whose session a command
was in keep no known state (R192); without a command in progress the reset reaches no device. -/
def Line.blockReset (duringCommand : Bool) (l : Line) : Line :=
  { l with
    driveLow := false
    env := if duringCommand then l.env.afterLostSession else l.env }

/-- Every state element of the block takes its reset value (R21, R43, R190); a command in progress is abandoned. The
line's past, the host's inputs and responses and the parameters are not the block's. Pass-local state has no reset
value (R36) and is left as it is. -/
def State.blockReset (s : State) : State :=
  { s with
    data := 0x00
    filter := 0x00
    filterEn := false
    crc := 0x00
    illcmd := false
    overrun := false
    presence := false
    result := false
    crcOk := false
    serr := false
    ld := 0
    ldf := false
    rom := Vector.replicate 8 0x00
    pending := none
    line := s.line.blockReset s.busy }

/-- The reset input is at a level from now on: the block is reset while it is asserted and when it is released; an input
that was not asserted and is not now does nothing (R190, log entry 18). -/
def State.setResetPin (s : State) (asserted : Bool) : State :=
  if asserted || s.resetPin then { s.blockReset with resetPin := asserted } else s

end Sys2Proof.Machine
end

