-- ==== Sys2Proof/Machine/BitTransport.lean ====
section
/-! DEFINITION. The commands of the bit transport (40_line_driver.md): NOP (R93), BUS_RESET (R95), WRITE_BIT (R100) and
READ_BIT (R104). -/

namespace Sys2Proof.Machine

/-- NOP: nothing but the BUSY cycle (R93). -/
def execNop (s : State) : Host.Outcome State Fault Refusal := .next s.complete

/-- The registers as a reset pulse with presence result `p` leaves them in BUS_RESET (R95). -/
def State.setPresenceResult (s : State) (p : Bool) : State := { s with presence := p, result := p }

/-- BUS_RESET: one reset; PRESENCE and RESULT take its presence bit (R95). -/
def execBusReset (s : State) : Host.Outcome State Fault Refusal :=
  let r := busReset s.params s.line
  .next ((s.setLine r.2).setPresenceResult r.1).complete

/-- WRITE_BIT: one write slot of the operand's bit 0; no register changes (R100). -/
def execWriteBit (s : State) : Host.Outcome State Fault Refusal :=
  .next (s.setLine (lineWriteBit s.params s.operandBit s.line)).complete

/-- READ_BIT: one read slot; DATA takes the bit, zero-extended (R104). -/
def execReadBit (s : State) : Host.Outcome State Fault Refusal :=
  let r := lineReadBit s.params s.line
  .next { s.setLine r.2 with data := zextBit r.1 }.complete

end Sys2Proof.Machine
end

