-- ==== Sys2Proof/Machine/ByteTransport.lean ====
section
/-! DEFINITION. The commands of the byte transport (41_byte_transport.md): WRITE_BYTE (R112) and READ_BYTE (R114). -/

namespace Sys2Proof.Machine

/-- WRITE_BYTE: eight write slots of the operand, bit 0 first; no register changes (R112). -/
def execWriteByte (s : State) : Host.Outcome State Fault Refusal :=
  .next (s.setLine (lineWriteByte s.params s.operand s.line)).complete

/-- READ_BYTE: eight read slots; DATA takes the byte (R114). -/
def execReadByte (s : State) : Host.Outcome State Fault Refusal :=
  let r := lineReadByte s.params s.line
  .next { s.setLine r.2 with data := r.1 }.complete

end Sys2Proof.Machine
end

