-- ==== Sys2Proof/Machine/Crc.lean ====
section
/-! DEFINITION. The commands of the CRC-8 validator (43_crc8.md): CRC_CLEAR (R147) and CRC_UPDATE (R148). -/

namespace Sys2Proof.Machine

/-- The accumulator takes a value, and RESULT says whether it is 0 (R147, R148). -/
def State.setCrc (s : State) (c : Byte) : State := { s with crc := c, result := c == 0x00 }

/-- CRC_CLEAR: the accumulator takes the seed 0 and RESULT is 1 (R147). -/
def execCrcClear (s : State) : Host.Outcome State Fault Refusal := .next (s.setCrc 0x00).complete

/-- CRC_UPDATE: the operand is folded in; RESULT is 1 when the new value is 0 (R148). -/
def execCrcUpdate (s : State) : Host.Outcome State Fault Refusal :=
  .next (s.setCrc (crc8Step s.crc s.operand)).complete

end Sys2Proof.Machine
end

