-- ==== Sys2Proof/Machine/RomSearch.lean ====
section
/-! DEFINITION. The ROM search engine (42_rom_search.md): the search pass (R123) step by step, and the commands
SEARCH_FIRST (R121) and SEARCH_NEXT (R122). The choices of 90_conflicts.md C1, C2 and C5 are those R123 states. -/

namespace Sys2Proof.Machine

/-- Step 4b: the direction at position `n`, from the two bits read, the previous pass's LD and its ROM (R126). -/
def branchDirection (n ld : Nat) (rom : RomCode) (idBit cmpIdBit : Bool) : Bool :=
  if idBit != cmpIdBit then idBit
  else if n < ld then romBit rom n
  else n == ld

/-- Step 1 exit: the enumeration is exhausted and only RESULT is written (R124). -/
def State.passExhausted (s : State) : State := { s with result := false }

/-- Step 2 exit: no presence (R125). -/
def State.passNoPresence (s : State) : State :=
  { s with ld := 0, ldf := false, serr := false, crcOk := false, result := false }

/-- Step 4a exit: data error (R127). -/
def State.passDataError (s : State) : State :=
  { s with ld := 0, ldf := false, serr := true, crcOk := false, result := false }

/-- Step 3: SEARCH_ROM_CODE goes out and `last_zero` starts at 0. -/
def State.passStart (s : State) : State :=
  { s with
    line := lineWriteByte s.params s.params.searchRomCode s.line
    pass := { s.pass with lastZero := 0 } }

/-- Step 4a: the two reads of position `n`. -/
def State.readPair (s : State) (n : Nat) : State :=
  let a := lineReadBit s.params s.line
  let b := lineReadBit s.params a.2
  { s with
    line := b.2
    pass := { s.pass with idBitNumber := n, idBit := a.1, cmpIdBit := b.1 } }

/-- Steps 4b to 4d at position `n`, after its two reads: the direction is taken, a discrepancy taken as 0 is recorded
(R130), the direction goes out (R128) and into ROM (R129). -/
def State.takeBranch (s : State) (n : Nat) : State :=
  let dir := branchDirection n s.ld s.rom s.pass.idBit s.pass.cmpIdBit
  { s with
    line := lineWriteBit s.params dir s.line
    rom := setRomBit s.rom n dir
    pass :=
      { s.pass with
        searchDirection := dir
        lastZero := if s.pass.idBit == s.pass.cmpIdBit && !dir then n else s.pass.lastZero } }

/-- Steps 5 to 7: the pass is complete (R131, R132). -/
def State.passComplete (s : State) : State :=
  { s with
    ld := s.pass.lastZero
    ldf := s.pass.lastZero == 0
    crcOk := romValid s.rom
    serr := false
    result := true }

/-- Step 4 from position `n` with `k` positions left. -/
def searchFrom : (k n : Nat) → State → State
  | 0, _, s => s.passComplete
  | k + 1, n, s =>
    let r := s.readPair n
    if r.pass.idBit && r.pass.cmpIdBit then r.passDataError
    else searchFrom k (n + 1) (r.takeBranch n)

/-- The state after step 2: the reset is made and PRESENCE records its result (R125). -/
def State.passReset (s : State) : State :=
  let r := busReset s.params s.line
  { s with line := r.2, presence := r.1 }

/-- `SearchPass()` (R123). -/
def searchPass (s : State) : State :=
  if s.ldf then s.passExhausted
  else
    let r := s.passReset
    if r.presence then searchFrom romBits 1 r.passStart else r.passNoPresence

/-- The start of a new enumeration (R44, R121). -/
def State.clearSearch (s : State) : State := { s with ld := 0, ldf := false }

/-- SEARCH_FIRST: LD and `s.ldf` clear, then one search pass (R121). -/
def execSearchFirst (s : State) : Host.Outcome State Fault Refusal :=
  .next (searchPass s.clearSearch).complete

/-- SEARCH_NEXT: one search pass with LD and `s.ldf` as they stand (R122). -/
def execSearchNext (s : State) : Host.Outcome State Fault Refusal :=
  .next (searchPass s).complete

end Sys2Proof.Machine
end

