-- ==== Sys2Proof/Machine/Dispatch.lean ====
section
/-! DEFINITION. Dispatch: the block step Complete of each command (10_state.md R46(c)), one arm per constructor. -/

namespace Sys2Proof.Machine

def exec (i : Instr) (s : State) : Host.Outcome State Fault Refusal :=
  match i with
  | .nop => Sys2Proof.Machine.execNop s
  | .busReset => Sys2Proof.Machine.execBusReset s
  | .writeBit => Sys2Proof.Machine.execWriteBit s
  | .readBit => Sys2Proof.Machine.execReadBit s
  | .writeByte => Sys2Proof.Machine.execWriteByte s
  | .readByte => Sys2Proof.Machine.execReadByte s
  | .searchFirst => Sys2Proof.Machine.execSearchFirst s
  | .searchNext => Sys2Proof.Machine.execSearchNext s
  | .crcClear => Sys2Proof.Machine.execCrcClear s
  | .crcUpdate => Sys2Proof.Machine.execCrcUpdate s

end Sys2Proof.Machine
end

