-- ==== Sys2Proof/Machine/Turns.lean ====
section
/-! DEFINITION. Whose turn it is (10_state.md R46): the block's turn, the host's accesses with their address and width
(20_memory.md R50, R53), and each input in turn. -/

namespace Sys2Proof.Machine

/-- The block's turn (R46(c)): the pending command completes; with none pending, or while the reset input is asserted,
the block waits for the host (R193). -/
def blockTurn (s : State) : Host.Outcome State Fault Refusal :=
  if s.resetPin then .next s
  else
    match s.pending with
    | some p => exec p.op s
    | none => .next s

/-- A host access: any width but 1 is refused (R53); an address outside the block reaches no register (R50,
DESIGN CHOICE, log entry 14). -/
def hostAccess (s : State) (addr width : Nat) (act : Reg → State) : Host.Outcome State Fault Refusal :=
  if width = 1 then
    match hostOffset s.params addr with
    | some off => .next (act (regAt off))
    | none => .fault (.outsideBlock addr)
  else .refused (.accessWidth width)

/-- The host polls STATUS (R73): while BUSY its reads return BUSY = 1 and it goes on, so the block's turn comes and the
poll stays; with BUSY = 0 one read of STATUS ends it (log entry 3). -/
def pollTurn (s : State) (rest : List Input) : Host.Outcome State Fault Refusal :=
  if s.busy then blockTurn s else .next ((s.hostRead .status).setInputs rest)

/-- One input takes effect; `s` still holds it, `rest` are the inputs after it. -/
def inputTurn (s : State) (rest : List Input) : Input → Host.Outcome State Fault Refusal
  | .write addr width v => hostAccess s addr width (fun r => (s.hostWrite r v).setInputs rest)
  | .read addr width => hostAccess s addr width (fun r => (s.hostRead r).setInputs rest)
  | .poll => pollTurn s rest
  | .blockTurn => blockTurn (s.setInputs rest)
  | .resetLine asserted => .next ((s.setResetPin asserted).setInputs rest)
  | .environment c => .next ((s.changeEnv c).setInputs rest)

/-- The next step: the first input, or the block's turn when there is none (weak fairness of R46(c)). -/
def stepTurn (s : State) : Host.Outcome State Fault Refusal :=
  match s.inputs with
  | [] => blockTurn s
  | i :: rest => inputTurn s rest i

/-- A command byte placed where the next step runs it: a legal code is accepted, as by a host write of CMD while idle,
and stands pending; an illegal one stands as that host write (R68). -/
def State.placeCommand (s : State) (nbits w : Nat) : State :=
  match decodeTableWord nbits w with
  | some i => { (s.accept i) with inputs := [], resetPin := false }
  | none =>
    { s with
      pending := none
      resetPin := false
      inputs := [.write (hostAddr s.params .cmd) 1 (BitVec.ofNat 8 w)] }

end Sys2Proof.Machine
end

