-- ==== Sys2Proof/Machine/Step.lean ====
section
/-! DEFINITION. The step of the whole machine and the placing of a command for it. -/

namespace Sys2Proof.Machine

/-- One step (10_state.md R46). -/
def step (s : State) : Host.Outcome State Fault Refusal := stepTurn s

/-- `s` with the command byte `w` placed so that the next step runs it (log entry 12). The block fetches nothing
(10_state.md R24): a host write of CMD starts a command, and this stands for that write, already accepted. -/
def State.withFetchWord (s : State) (nbits w : Nat) : State := s.placeCommand nbits w

end Sys2Proof.Machine
end

