-- ==== Sys2Proof/Machine/HostProgram.lean ====
section
/-! DEFINITION. The host program syntax (30_encoding.md R73) and the pseudo-instructions that expand to register
accesses (R74, R75), as lists of inputs. Host control flow is the host's and is not modelled (R73, R138). -/

namespace Sys2Proof.Machine

/-- `wr OFF, V` (R73). -/
def progWr (p : Params) (r : Reg) (v : Byte) : Input := .write (hostAddr p r) 1 v

/-- `rd OFF` (R73). -/
def progRd (p : Params) (r : Reg) : Input := .read (hostAddr p r) 1

/-- A command mnemonic without an operand: `wr CMD, code; poll` (R74). -/
def progCommand (p : Params) (i : Instr) : List Input := [progWr p .cmd (encode i), .poll]

/-- A command mnemonic with an operand: `wr DATA, v; wr CMD, code; poll` (R74). -/
def progCommandWith (p : Params) (i : Instr) (v : Byte) : List Input :=
  progWr p .data v :: progCommand p i

/-- `WRITE_BYTE v` (R74). -/
def progWriteByte (p : Params) (v : Byte) : List Input := progCommandWith p .writeByte v

/-- `SKIP_ROM` (R75). -/
def progSkipRom (p : Params) : List Input := progWriteByte p p.skipRomCode

/-- `MATCH_ROM r0..r7`: byte 0 first (R75, R117). -/
def progMatchRom (p : Params) (r : RomCode) : List Input :=
  progWriteByte p p.matchRomCode ++ r.toList.flatMap (progWriteByte p)

/-- `SEARCH_ROM_RAW` (R75). -/
def progSearchRomRaw (p : Params) : List Input := progWriteByte p p.searchRomCode

/-- `CONVERT_T` (R75). -/
def progConvertT (p : Params) : List Input := progWriteByte p p.convertTCode

/-- `READ_SCRATCHPAD` (R75). -/
def progReadScratchpad (p : Params) : List Input := progWriteByte p p.readScratchpadCode

/-- `SELECT_ALL` (R75). -/
def progSelectAll (p : Params) : List Input := progCommand p .busReset ++ progSkipRom p

/-- `SELECT r0..r7` (R75). -/
def progSelect (p : Params) (r : RomCode) : List Input :=
  progCommand p .busReset ++ progMatchRom p r

end Sys2Proof.Machine
end

