-- ==== Sys2Proof/Safety.lean ====
section
/-! DEFINITION. The terms in which claims about the machine are written: the invariants (42_rom_search.md R137,
40_line_driver.md R92, 43_crc8.md R153, 70_reset_and_hazards.md R190), good inputs, runs of commands, and the order of a
complete enumeration (42_rom_search.md R139). -/

namespace Sys2Proof.Machine

/-- Every register and internal element of the block that has a reset value holds it (R21, R43). -/
structure AtResetValues (s : State) : Prop where
  data : s.data = 0x00
  filter : s.filter = 0x00
  filterEn : s.filterEn = false
  crc : s.crc = 0x00
  illcmd : s.illcmd = false
  overrun : s.overrun = false
  presence : s.presence = false
  result : s.result = false
  crcOk : s.crcOk = false
  serr : s.serr = false
  ld : s.ld = 0
  ldf : s.ldf = false
  rom : s.rom = Vector.replicate 8 0x00
  pending : s.pending = none
  driveLow : s.line.driveLow = false

/-- What holds of the block in every reachable state. -/
structure Inv (s : State) : Prop where
  /-- `0 ≤ LD ≤ 64` (R26, R137). -/
  ldRange : s.ld ≤ 64
  /-- `s.ldf = 1` implies `LD = 0` (R137). -/
  ldfHasNoBranch : s.ldf = true → s.ld = 0
  /-- SERR = 1 means the last pass that used the bus was cut off: the search state is clear and CRC_OK is 0 (R127). -/
  serrIsClean : s.serr = true → s.ld = 0 ∧ s.ldf = false ∧ s.crcOk = false
  /-- CRC_OK = 1 only with a valid code in ROM0..ROM7 (R153). -/
  crcOkIsValid : s.crcOk = true → romValid s.rom = true
  /-- The line is released outside a primitive (R37, R92). -/
  lineReleased : s.line.driveLow = false
  /-- While the reset input is asserted the block holds its reset values (R190). -/
  heldInReset : s.resetPin = true → AtResetValues s

/-- What no command touches: the host's side, the reset input and the parameters. -/
structure SameOutside (s t : State) : Prop where
  resetPin : t.resetPin = s.resetPin
  inputs : t.inputs = s.inputs
  responses : t.responses = s.responses
  readDraws : t.readDraws = s.readDraws
  params : t.params = s.params

/-- An input the machine neither faults on nor refuses: a host access is one byte wide and lies in the block. -/
def Input.wf (p : Params) : Input → Bool
  | .write addr width _ => width == 1 && (hostOffset p addr).isSome
  | .read addr width => width == 1 && (hostOffset p addr).isSome
  | .poll => true
  | .blockTurn => true
  | .resetLine _ => true
  | .environment _ => true

/-- `k` steps, stopping at the first fault or refusal. -/
def runSteps : Nat → State → Host.Outcome State Fault Refusal
  | 0, s => .next s
  | k + 1, s =>
    match step s with
    | .next t => runSteps k t
    | .fault r => .fault r
    | .refused r => .refused r

/-- The state a command leaves, where it answers a next state. -/
def after (i : Instr) (s : State) : State :=
  match exec i s with
  | .next t => t
  | .fault _ => s
  | .refused _ => s

/-- The line time of one primitive (40_line_driver.md R107). -/
def activityTime (t : Timing) : LineActivity → Nat
  | .reset _ => t.rstl + t.rsth
  | .writeSlot _ => t.slot + t.recovery
  | .readSlot _ => t.slot + t.recovery

/-- Whether a primitive is a reset; every other one is a slot. -/
def LineActivity.isReset : LineActivity → Bool
  | .reset _ => true
  | .writeSlot _ => false
  | .readSlot _ => false

/-- What went over the line at one position of a search pass: the two bits read and the direction written (R123). -/
structure Position where
  idBit : Bool
  cmpIdBit : Bool
  dir : Bool
deriving DecidableEq, Repr

/-- A position resolved as 0 at a discrepancy (R130). -/
def Position.zeroTaken (x : Position) : Bool := !x.idBit && !x.cmpIdBit && !x.dir

/-- The line activity of one position, oldest first. -/
def Position.activity (x : Position) : List LineActivity :=
  [.readSlot x.idBit, .readSlot x.cmpIdBit, .writeSlot x.dir]

/-- The write slots of a byte, bit 0 first (41_byte_transport.md R110, R111). -/
def byteSlots (v : Byte) : List LineActivity := (List.range 8).map (fun i => .writeSlot (v.getLsbD i))

/-- The positions 1 to `xs.length` of a search pass that started with discrepancy position `ld` and ROM `rom` took the
directions of R126: the agreed bit, or at a discrepancy the replayed bit below LD, 1 at LD and 0 above it. -/
def DirectionsFollow (ld : Nat) (rom : RomCode) (xs : List Position) : Prop :=
  ∀ k : Nat, ∀ x : Position, xs[k]? = some x →
    ¬(x.idBit = true ∧ x.cmpIdBit = true) ∧
    (x.idBit ≠ x.cmpIdBit → x.dir = x.idBit) ∧
    (x.idBit = x.cmpIdBit → k + 1 < ld → x.dir = romBit rom (k + 1)) ∧
    (x.idBit = x.cmpIdBit → k + 1 = ld → x.dir = true) ∧
    (x.idBit = x.cmpIdBit → ld < k + 1 → x.dir = false)

/-- ROM code `t` holds the directions of the positions made, and `s` at every position after them (R129, R133). -/
def RomHolds (s t : RomCode) (xs : List Position) : Prop :=
  (∀ k : Nat, ∀ x : Position, xs[k]? = some x → romBit t (k + 1) = x.dir) ∧
  (∀ n : Nat, xs.length < n → n ≤ romBits → romBit t n = romBit s n)

/-- `n` is the highest position of the pass at which a discrepancy was resolved as 0, or 0 if there was none (R130). -/
def IsLastZero (n : Nat) (xs : List Position) : Prop :=
  (n = 0 ∨ ∃ x, xs[n - 1]? = some x ∧ x.zeroTaken = true) ∧
  (∀ k : Nat, ∀ x : Position, xs[k]? = some x → x.zeroTaken = true → k + 1 ≤ n)

/-- The host folds a byte into the CRC: `wr DATA, b; wr CMD, 0x09`, and the command completes (R74). -/
def hostCrcUpdate (s : State) (b : Byte) : State :=
  after .crcUpdate ((s.hostWrite .data b).hostWrite .cmd 0x09)

/-- `key(r)`: ROMBIT(r, 1) to ROMBIT(r, 64) (R139). -/
def romKey (r : RomCode) : List Bool := (List.range romBits).map (fun i => romBit r (i + 1))

/-- The states after those of up to `k` SEARCH_NEXT commands that returned RESULT = 1, in order, and the state after
the first that returned RESULT = 0 (or after the last of them): the host goes on until RESULT = 0 (R139). -/
def searchNextRun : Nat → State → List State × State
  | 0, s => ([], s)
  | k + 1, s =>
    let t := after .searchNext s
    if t.result then (t :: (searchNextRun k t).1, (searchNextRun k t).2) else ([], t)

/-- A complete enumeration: SEARCH_FIRST, then up to `k` SEARCH_NEXT commands until RESULT = 0 (R139). -/
def enumeration (k : Nat) (s : State) : List State × State :=
  let t := after .searchFirst s
  if t.result then (t :: (searchNextRun k t).1, (searchNextRun k t).2) else ([], t)

end Sys2Proof.Machine
end

