-- ==== Sys2Proof/Certificates/Slice0/Obligations.lean ====
section
/-! DEFINITION. The statements for the provers. Each docstring names the rule of spec/ it formalises. A statement holds
for every value of the parameters, of the environment and of the free draws, unless a hypothesis says otherwise. -/

open Sys2Proof Sys2Proof.Machine

/-! ## Reset, decoding and stepping -/

/-- R191: every register as the host reads it right after reset, at `State.reset` and after the block reset of any
state, be the reset input asserted or just released. -/
def Obligations.ResetRegistersReadAsListed : Prop :=
  ∀ s : State, (s = State.reset ∨ (∃ t, s = State.setResetPin t true) ∨
      ∃ t, t.resetPin = true ∧ s = State.setResetPin t false) →
    s.readValue .cmd = 0x00 ∧ s.readValue .status = 0x20 ∧ s.readValue .data = 0x00 ∧
    s.readValue .ld = 0x00 ∧ s.readValue .filter = 0x00 ∧ s.readValue .fctrl = 0x00 ∧
    s.readValue .crc = 0x00 ∧ s.readValue .err = 0x00 ∧ (∀ k, s.readValue (.rom k) = 0x00) ∧
    s.pending = none ∧ s.busy = false ∧ s.ldf = false ∧ s.line.driveLow = false

/-- The opcode map of 30_encoding.md section 1 as words written out from `0000oooo`, with every other byte
rejected by name. -/
def Obligations.CommandWordsDecodeAsTheOpcodeMap : Prop :=
  decode 0b00000000 = .ok .nop ∧ decode 0b00000001 = .ok .busReset ∧ decode 0b00000010 = .ok .writeBit ∧
  decode 0b00000011 = .ok .readBit ∧ decode 0b00000100 = .ok .writeByte ∧ decode 0b00000101 = .ok .readByte ∧
  decode 0b00000110 = .ok .searchFirst ∧ decode 0b00000111 = .ok .searchNext ∧
  decode 0b00001000 = .ok .crcClear ∧ decode 0b00001001 = .ok .crcUpdate ∧
  (∀ v : Byte, 0x0A ≤ v.toNat → v.toNat ≤ 0x0F → decode v = .error .reservedOp) ∧
  (∀ v : Byte, 0x10 ≤ v.toNat → decode v = .error .illegalZ)

/-- 30_encoding.md section 1: the encoder and the decoder agree both ways, and the encoder's bytes are the legal
ones. -/
def Obligations.EncodeAndDecodeAgree : Prop :=
  (∀ i : Instr, decode (encode i) = .ok i) ∧
  (∀ (v : Byte) (i : Instr), decode v = .ok i → encode i = v) ∧
  (∀ v : Byte, commandByteWf v = true ↔ ∃ i, encode i = v)

/-- 10_state.md section 5: the block's turn runs the command that was decoded at acceptance, whether the block
acts because no input waits, because the input gives it the turn, or because the host polls; a host write of any
register that is next, CMD among them, is done by the step, which uses up the input; and a command placed for the
next step is run by it. That a list of inputs says whose turn it is, and how a command is placed, is the model's
choice (log entries 3 and 12). -/
def Obligations.StepRunsTheDecodedCommand : Prop :=
  (∀ (s : State) (p : Pending), s.pending = some p → s.resetPin = false →
    (s.inputs = [] → step s = exec p.op s) ∧
    (∀ rest, s.inputs = .blockTurn :: rest → step s = exec p.op { s with inputs := rest }) ∧
    (∀ rest, s.inputs = .poll :: rest → step s = exec p.op s)) ∧
  (∀ (s : State) (v : Byte) (rest : List Input), s.inputs = .write (hostAddr s.params .cmd) 1 v :: rest →
    step s = .next { s.hostWrite .cmd v with inputs := rest }) ∧
  (∀ (s : State) (off : Offset) (v : Byte) (rest : List Input),
    s.inputs = .write (s.params.blockBase + off.toNat) 1 v :: rest →
    step s = .next { s.hostWrite (regAt off) v with inputs := rest }) ∧
  (∀ (s : State) (v : Byte) (i : Instr), decode v = .ok i →
    (s.withFetchWord 8 v.toNat).pending = some { op := i, operand := s.data } ∧
    step (s.withFetchWord 8 v.toNat) = exec i (s.withFetchWord 8 v.toNat))

/-- R68: a host write of CMD while idle either makes the command pending with DATA latched, or sets ILLCMD, and
changes nothing else; every byte is one or the other. -/
def Obligations.CmdWriteAcceptsOrFlags : Prop :=
  ∀ (s : State) (v : Byte), s.pending = none → s.resetPin = false →
    (v.extractLsb' 4 4 = 0 ∧ (v.extractLsb' 0 4).toNat ≤ 9 →
      ∃ i, opCode i = v.extractLsb' 0 4 ∧
        s.hostWrite .cmd v = { s with pending := some { op := i, operand := s.data } }) ∧
    (¬(v.extractLsb' 4 4 = 0 ∧ (v.extractLsb' 0 4).toNat ≤ 9) →
      s.hostWrite .cmd v = { s with illcmd := true })

/-- 10_state.md section 5: every command completes with a next state; BUSY is 0 in it and the host's side is
untouched. -/
def Obligations.EveryCommandCompletes : Prop :=
  ∀ (i : Instr) (s : State), ∃ t, exec i s = .next t ∧ t.pending = none ∧ SameOutside s t

/-- 10_state.md section 5 and 20_memory.md sections 1 and 2: a step stops on a host access of a wrong width, which
is refused, and on one at an address outside the block, which faults, and on nothing else (the fault, and that the
width is looked at first, is the model's choice, log entry 14). -/
def Obligations.OnlyBadHostAccessesStop : Prop :=
  (∀ s : State,
    (∃ t, step s = .next t) ∨
    ∃ (addr width : Nat) (rest : List Input),
      ((∃ v, s.inputs = .write addr width v :: rest) ∨ s.inputs = .read addr width :: rest) ∧
      ((width ≠ 1 ∧ step s = .refused (.accessWidth width)) ∨
       (width = 1 ∧ ¬(s.params.blockBase ≤ addr ∧ addr < s.params.blockBase + 16) ∧
        step s = .fault (.outsideBlock addr)))) ∧
  (∀ (s : State) (addr width : Nat) (rest : List Input),
    ((∃ v, s.inputs = .write addr width v :: rest) ∨ s.inputs = .read addr width :: rest) →
    (width ≠ 1 → step s = .refused (.accessWidth width)) ∧
    (width = 1 → ¬(s.params.blockBase ≤ addr ∧ addr < s.params.blockBase + 16) →
      step s = .fault (.outsideBlock addr)))

/-- 70_reset_and_hazards.md section 3: once a command is pending it completes (or the block is reset) within one
step per waiting input and one more, whatever the inputs are. The list of inputs is the model's (log entry 3). -/
def Obligations.PendingCommandCompletesInBoundedSteps : Prop :=
  ∀ s : State, s.pending ≠ none → s.resetPin = false →
    (∀ i ∈ s.inputs, Input.wf s.params i = true) →
    ∃ k t, k ≤ s.inputs.length + 1 ∧ runSteps k s = .next t ∧ t.pending = none

/-! ## Host register interface -/

/-- R200: a write while BUSY to any register but ERR sets OVERRUN and does nothing else, not even decode. -/
def Obligations.WriteWhileBusyOnlySetsOverrun : Prop :=
  ∀ (s : State) (r : Reg) (v : Byte), s.pending ≠ none → s.resetPin = false → r ≠ .err →
    s.hostWrite r v = { s with overrun := true }

/-- R30: ERR: what sets ILLCMD and OVERRUN, that both are sticky, write 1 to clear, also while BUSY, that bits 7:2
read 0, and its reset value. -/
def Obligations.ErrIsWriteOneToClear : Prop :=
  State.reset.illcmd = false ∧ State.reset.overrun = false ∧ Reg.err.offset = 0x7 ∧
  ∀ (s : State) (v : Byte), s.resetPin = false →
    (s.pending = none → (∀ i, encode i ≠ v) → (s.hostWrite .cmd v).illcmd = true) ∧
    (s.pending ≠ none → ∀ r, r ≠ .err → (s.hostWrite r v).overrun = true) ∧
    s.hostWrite .err v =
      { s with illcmd := s.illcmd && !v.getLsbD 0, overrun := s.overrun && !v.getLsbD 1 } ∧
    (s.readValue .err).getLsbD 0 = s.illcmd ∧ (s.readValue .err).getLsbD 1 = s.overrun ∧
    (∀ k, 2 ≤ k → (s.readValue .err).getLsbD k = false) ∧
    (∀ i t, exec i s = .next t → t.illcmd = s.illcmd ∧ t.overrun = s.overrun) ∧
    (∀ r w, r ≠ .err → (s.illcmd = true → (s.hostWrite r w).illcmd = true) ∧
      (s.overrun = true → (s.hostWrite r w).overrun = true))

/-- R32: writes of read-only registers change nothing, reserved bits read 0 and ignore writes. -/
def Obligations.ReadOnlyAndReservedBitsIgnoreWrites : Prop :=
  ∀ (s : State) (v : Byte),
    (∀ r, s.pending = none → (r = .status ∨ r = .ld ∨ r = .crc ∨ ∃ k, r = .rom k) → s.hostWrite r v = s) ∧
    s.hostWrite .fctrl v = s.hostWrite .fctrl (v &&& 0x01) ∧
    s.hostWrite .err v = s.hostWrite .err (v &&& 0x03) ∧
    (s.readValue .status).getLsbD 7 = false ∧
    (∀ k, 1 ≤ k → (s.readValue .fctrl).getLsbD k = false) ∧
    (∀ k, 2 ≤ k → (s.readValue .err).getLsbD k = false)

/-- 10_state.md sections 1 and 2: while BUSY = 0 a host read returns the register it names, and DATA, FILTER and
FCTRL read back what was written. -/
def Obligations.WritableRegistersReadBack : Prop :=
  (∀ s : State, s.pending = none →
    s.readValue .cmd = 0x00 ∧ s.readValue .status = s.statusByte ∧ s.readValue .data = s.data ∧
    s.readValue .ld = BitVec.ofNat 8 s.ld ∧ s.readValue .filter = s.filter ∧
    s.readValue .fctrl = (if s.filterEn then 0x01 else 0x00) ∧ s.readValue .crc = s.crc ∧
    s.readValue .err = (if s.illcmd then 0x01 else 0x00) ||| (if s.overrun then 0x02 else 0x00) ∧
    (∀ k, s.readValue (.rom k) = s.rom[k])) ∧
  ∀ (s : State) (v : Byte), s.pending = none → s.resetPin = false →
    s.hostWrite .data v = { s with data := v } ∧ (s.hostWrite .data v).readValue .data = v ∧
    s.hostWrite .filter v = { s with filter := v } ∧ (s.hostWrite .filter v).readValue .filter = v ∧
    s.hostWrite .fctrl v = { s with filterEn := v.getLsbD 0 } ∧
    (s.hostWrite .fctrl v).readValue .fctrl = v &&& 0x01

/-- 10_state.md section 5: while BUSY a read of CMD, FILTER, FCTRL or ERR is exact, STATUS has BUSY = 1 and its
reserved bit 0, and every other bit read is that of the free draw `Config.freeByte`, whatever it is; each read
uses up one draw (the form of the free value is the model's, log entry 5). -/
def Obligations.ReadsWhileBusyAreFree : Prop :=
  ∀ s : State, s.pending ≠ none →
    s.readValue .cmd = 0x00 ∧ s.readValue .filter = s.filter ∧
    (s.readValue .fctrl).getLsbD 0 = s.filterEn ∧ (s.readValue .err).getLsbD 0 = s.illcmd ∧
    (s.readValue .err).getLsbD 1 = s.overrun ∧
    (s.readValue .status).getLsbD 0 = true ∧ (s.readValue .status).getLsbD 7 = false ∧
    (∀ k, 1 ≤ k → k ≤ 6 → (s.readValue .status).getLsbD k = (Config.freeByte s.readDraws).getLsbD k) ∧
    (∀ r, (r = .data ∨ r = .ld ∨ r = .crc ∨ ∃ k, r = .rom k) →
      s.readValue r = Config.freeByte s.readDraws) ∧
    (∀ r, s.hostRead r = { s with responses := s.readValue r :: s.responses, readDraws := s.readDraws + 1 })

/-- 20_memory.md section 3: a host read has no side effect on the block, and outside BUSY two reads in a row
return the same value. The list of responses is the model's (log entry 17). -/
def Obligations.HostReadsHaveNoSideEffect : Prop :=
  ∀ (s : State) (off : Offset) (rest : List Input),
    s.inputs = .read (s.params.blockBase + off.toNat) 1 :: rest →
    ∃ t, step s = .next t ∧
      t = { s with
        inputs := rest
        responses := s.readValue (regAt off) :: s.responses
        readDraws := t.readDraws } ∧
      (s.pending = none → t.readDraws = s.readDraws ∧ t.readValue (regAt off) = s.readValue (regAt off))

/-- 20_memory.md section 1 and 10_state.md section 1: the register map offset by offset; each of the sixteen
offsets is one register, and the block answers exactly the sixteen host addresses from `BLOCK_BASE`. -/
def Obligations.EveryOffsetIsOneRegister : Prop :=
  (regAt 0x0 = .cmd ∧ regAt 0x1 = .status ∧ regAt 0x2 = .data ∧ regAt 0x3 = .ld ∧ regAt 0x4 = .filter ∧
    regAt 0x5 = .fctrl ∧ regAt 0x6 = .crc ∧ regAt 0x7 = .err ∧
    ∀ k : Fin 8, regAt (BitVec.ofNat 4 (8 + k.val)) = .rom k) ∧
  (∀ off : Offset, (regAt off).offset = off) ∧ (∀ r : Reg, regAt r.offset = r) ∧
  (∀ (p : Params) (off : Offset), hostOffset p (p.blockBase + off.toNat) = some off) ∧
  (∀ (p : Params) (addr : Nat), (hostOffset p addr).isSome = true ↔
    p.blockBase ≤ addr ∧ addr < p.blockBase + 16)

/-- 10_state.md sections 1 and 3: STATUS bit by bit, with BUSY, LDF and FAM_MATCH computed. -/
def Obligations.StatusBitsAreAsListed : Prop :=
  ∀ s : State,
    s.statusByte.getLsbD 0 = s.pending.isSome ∧ s.statusByte.getLsbD 1 = s.presence ∧
    s.statusByte.getLsbD 2 = s.result ∧ s.statusByte.getLsbD 3 = s.crcOk ∧
    s.statusByte.getLsbD 4 = s.ldf ∧
    s.statusByte.getLsbD 5 = (decide (s.filterEn = false) || decide (s.rom[0] = s.filter)) ∧
    s.statusByte.getLsbD 6 = s.serr ∧ s.statusByte.getLsbD 7 = false

/-- 30_encoding.md section 4: the host program `wr DATA, v; wr CMD, code; poll` runs the command on the operand
`v` and then reads STATUS; `wr CMD, code; poll` runs it with DATA as it stands. How `poll` and the block's turn
interleave is the model's choice (log entry 3), and so is the list of the values read (log entry 17). -/
def Obligations.MnemonicExpansionRunsItsCommand : Prop :=
  (∀ (s : State) (i : Instr), s.pending = none → s.resetPin = false → s.inputs = progCommand s.params i →
    ∃ t, exec i { s with inputs := [], pending := some { op := i, operand := s.data } } = .next t ∧
      (i ≠ .readBit → i ≠ .readByte → t.data = s.data) ∧
      runSteps 3 s = .next { t with responses := t.statusByte :: s.responses }) ∧
  ∀ (s : State) (i : Instr) (v : Byte), s.pending = none → s.resetPin = false →
    s.inputs = progCommandWith s.params i v →
    ∃ t, exec i { s with data := v, inputs := [], pending := some { op := i, operand := v } } = .next t ∧
      runSteps 4 s = .next { t with responses := t.statusByte :: s.responses }

/-- 70_reset_and_hazards.md section 1: the reset input, asserted or released after that, puts every state element
at its reset value, abandons the command in progress, releases the line with no line activity, and leaves a device
unknown when a command was in progress; an input that stays released does nothing. The model's choices in it: the
reset input as an element of the list of inputs (log entries 3 and 18), the mode `unknown` (log entry 8), the
record of the line and the list of responses that a reset keeps (log entries 6 and 17) and the time base that it
keeps (log entry 19). -/
def Obligations.BlockResetRestoresEveryElement : Prop :=
  (∀ (s : State) (rest : List Input), s.resetPin = false → s.inputs = .resetLine false :: rest →
    step s = .next { s with inputs := rest }) ∧
  ∀ (s : State) (a : Bool) (rest : List Input), a = true ∨ s.resetPin = true →
    s.inputs = .resetLine a :: rest →
    ∃ t, step s = .next t ∧ AtResetValues t ∧ t.resetPin = a ∧ t.inputs = rest ∧
      t.line.activity = s.line.activity ∧ t.line.timebase = s.line.timebase ∧ t.params = s.params ∧
      t.responses = s.responses ∧
      (s.pending = none → t.line.env = s.line.env) ∧
      (s.pending ≠ none → ∀ ds, s.line.env = .bus ds →
        t.line.env = .bus (ds.map (fun d => { d with mode := .unknown })))

/-- 70_reset_and_hazards.md section 1: while the reset input is asserted no host write has an effect, a turn of
the block does nothing, and asserting it again keeps the block at its reset values (the level of the input as
state is the model's, log entry 18, and so are the ways the block gets its turn, log entry 3). -/
def Obligations.AssertedResetHoldsTheBlock : Prop :=
  ∀ s : State, s.resetPin = true →
    (∀ r v, s.hostWrite r v = s) ∧ (s.inputs = [] → step s = .next s) ∧
    (∀ rest, s.inputs = .blockTurn :: rest → step s = .next { s with inputs := rest }) ∧
    AtResetValues (s.setResetPin true) ∧ (s.setResetPin true).resetPin = true

/-! ## Line driver, bit and byte transport -/

/-- 40_line_driver.md section 2: the waveforms, action by action. -/
def Obligations.WaveformsAreAsListed : Prop :=
  ∀ t : Timing,
    resetWave t = [.low, .wait t.rstl, .release, .wait t.pds, .sample, .wait (t.rsth - t.pds)] ∧
    writeWave t true = [.low, .wait t.low1, .release, .wait (t.slot - t.low1), .wait t.recovery] ∧
    writeWave t false = [.low, .wait t.low0, .release, .wait (t.slot - t.low0), .wait t.recovery] ∧
    readWave t = [.low, .wait t.rdl, .release, .wait (t.rds - t.rdl), .sample, .wait (t.slot - t.rds),
      .wait t.recovery]

/-- 40_line_driver.md sections 1 and 2: the sampled level is high exactly when neither the devices nor the master
pull the line low, and every primitive ends with the line released, so what it samples is the devices' level. -/
def Obligations.PrimitivesReleaseTheLine : Prop :=
  ∀ (p : Params) (l : Line) (b level : Bool),
    ((lineStep level (b, l) .sample).1 = true ↔ level = true ∧ l.driveLow = false) ∧
    (busReset p l).2.driveLow = false ∧ (busReset p l).1 = (envReset l).1 ∧
    (lineWriteBit p b l).driveLow = false ∧
    (lineReadBit p l).2.driveLow = false ∧ (lineReadBit p l).1 = (envRead l).1

/-- R107: with legal timing a command takes the time of its primitives, `T_RSTL + T_RSTH` for a reset and `T_SLOT
+ T_REC` for a slot, plus `T_CMD`; the default reset takes 960 TU and the default slot 70. -/
def Obligations.CommandTimeIsTheSumOfItsPrimitives : Prop :=
  (∀ (i : Instr) (s t : State), s.params.timing.wf = true → exec i s = .next t →
    ∃ acts : List LineActivity, t.line.activity = acts ++ s.line.activity ∧
      t.line.timebase = s.line.timebase + (acts.map (activityTime s.params.timing)).sum + s.params.timing.cmd) ∧
  (∀ b, activityTime Timing.default (.reset b) = 960) ∧
  (∀ b, activityTime Timing.default (.writeSlot b) = 70) ∧
  (∀ b, activityTime Timing.default (.readSlot b) = 70)

/-- 70_reset_and_hazards.md section 3: a command makes at most one reset and 200 slots. -/
def Obligations.CommandMakesAtMostOneResetAndTwoHundredSlots : Prop :=
  ∀ (i : Instr) (s t : State), exec i s = .next t →
    ∃ acts : List LineActivity, t.line.activity = acts ++ s.line.activity ∧
      acts.countP LineActivity.isReset ≤ 1 ∧ acts.countP (fun a => !a.isReset) ≤ 200

/-- R93: NOP leaves every register as it was; only BUSY goes, and the overhead passes. -/
def Obligations.NopChangesNothing : Prop :=
  encode .nop = 0b00000000 ∧
  (∀ s : State, exec .nop s =
    .next { s with
      pending := none
      line := { s.line with timebase := s.line.timebase + s.params.timing.cmd } }) ∧
  (∀ s : State, s.pending ≠ none → s.resetPin = false →
    s.hostWrite .cmd 0b00000000 = { s with overrun := true })

/-- R95: BUS_RESET makes one reset and puts its presence bit into PRESENCE and RESULT, and writes nothing else;
the corner cases of an empty bus and of a line held low, and the example of one device. -/
def Obligations.BusResetWritesPresenceAndResult : Prop :=
  encode .busReset = 0b00000001 ∧
  (∀ s : State, exec .busReset s =
    .next { s with
      presence := (busReset s.params s.line).1
      result := (busReset s.params s.line).1
      pending := none
      line := (busReset s.params s.line).2.overhead s.params }) ∧
  (∀ s : State, s.line.env = .bus [] → (after .busReset s).result = false ∧ (after .busReset s).presence = false) ∧
  (∀ s : State, s.line.env = .stuckLow → (after .busReset s).result = true ∧ (after .busReset s).presence = true) ∧
  (∀ (s : State) (ds : List Device), s.line.env = .bus ds →
    (after .busReset s).line.env = .bus (ds.map (fun d => { d with mode := .romCmd 0 0x00 }))) ∧
  (∀ (s : State) (d : Device), s.line.env = .bus [d] → s.filterEn = false → s.ldf = false →
    s.crcOk = false → s.serr = false → (after .busReset s).readValue .status = 0x26)

/-- 44_bus_environment.md section 3: a reset answered by a bus of conforming devices: presence exactly when there
is a device, and every device starts a new session. -/
def Obligations.ResetEndsEveryDeviceSession : Prop :=
  ∀ (p : Params) (l : Line) (ds : List Device), l.env = .bus ds →
    ((busReset p l).1 = true ↔ ds ≠ []) ∧
    (busReset p l).2.env = .bus (ds.map (fun d => { d with mode := .romCmd 0 0x00 }))

/-- R100, R101: WRITE_BIT makes one write slot of bit 0 of the latched operand, whatever its bits 7:1 and whatever
the environment, and writes no register. -/
def Obligations.WriteBitSendsBitZero : Prop :=
  encode .writeBit = 0b00000010 ∧
  (∀ (s : State) (v : Byte), s.pending = some { op := .writeBit, operand := v } →
    exec .writeBit s =
      .next { s with
        pending := none
        line := (lineWriteBit s.params (v.getLsbD 0) s.line).overhead s.params } ∧
    (after .writeBit s).line.activity = .writeSlot (v.getLsbD 0) :: s.line.activity ∧
    (after .writeBit s).line.env = (envWrite s.params (v.getLsbD 0) s.line).env) ∧
  (0xFE : Byte).getLsbD 0 = false ∧ (0x01 : Byte).getLsbD 0 = true

/-- R104: READ_BIT makes one read slot and DATA takes the zero-extended bit; a bus on which nobody sends reads 1,
and a device that sends a 0 makes it 0x00. -/
def Obligations.ReadBitPutsTheBitInData : Prop :=
  encode .readBit = 0b00000011 ∧
  (∀ s : State,
    exec .readBit s =
      .next { s with
        data := if (lineReadBit s.params s.line).1 then 0x01 else 0x00
        pending := none
        line := (lineReadBit s.params s.line).2.overhead s.params } ∧
    (after .readBit s).line.activity = .readSlot (lineReadBit s.params s.line).1 :: s.line.activity) ∧
  (∀ (s : State) (ds : List Device), s.line.env = .bus ds →
    (∀ d ∈ ds, d.mode = .idle ∨ d.mode = .deselected ∨ (∃ k v, d.mode = .romCmd k v) ∨
      (∃ k ok, d.mode = .matchRom k ok) ∨ (∃ n ph, d.mode = .search n ph false) ∨
      ∃ n c, d.mode = .search n .recvDir c) →
    (after .readBit s).data = 0x01) ∧
  (∀ (s : State) (ds : List Device) (d : Device) (n : Nat), s.line.env = .bus ds → d ∈ ds →
    (d.mode = .search n .sendBit true ∧ romBit d.rom n = false ∨
      d.mode = .search n .sendCmp true ∧ romBit d.rom n = true) →
    (after .readBit s).data = 0x00)

/-- R111, R112: WRITE_BYTE makes eight write slots of the latched operand, bit 0 first, and writes no register. -/
def Obligations.WriteByteSendsEightBitsLsbFirst : Prop :=
  encode .writeByte = 0b00000100 ∧
  (∀ (s : State) (v : Byte), s.pending = some { op := .writeByte, operand := v } →
    exec .writeByte s =
      .next { s with
        pending := none
        line := (lineWriteByte s.params v s.line).overhead s.params } ∧
    (after .writeByte s).line.activity =
      .writeSlot (v.getLsbD 7) :: .writeSlot (v.getLsbD 6) :: .writeSlot (v.getLsbD 5) ::
      .writeSlot (v.getLsbD 4) :: .writeSlot (v.getLsbD 3) :: .writeSlot (v.getLsbD 2) ::
      .writeSlot (v.getLsbD 1) :: .writeSlot (v.getLsbD 0) :: s.line.activity ∧
    (after .writeByte s).line.env =
      ((List.range 8).foldl (fun l i => envWrite s.params (v.getLsbD i) l) s.line).env)

/-- R113, R114: READ_BYTE makes eight read slots and bit i of DATA is the bit of the i-th; it writes nothing but
DATA; with no device transmitting DATA is 0xFF; slots that read 0,0,0,0,1,0,1,0 give 0x50. -/
def Obligations.ReadByteAssemblesEightBitsLsbFirst : Prop :=
  encode .readByte = 0b00000101 ∧
  (∀ s : State,
    exec .readByte s =
      .next { s with
        data := (lineReadByte s.params s.line).1
        pending := none
        line := (lineReadByte s.params s.line).2.overhead s.params } ∧
    (after .readByte s).line.activity =
      ((List.range 8).map (fun i => LineActivity.readSlot ((after .readByte s).data.getLsbD i))).reverse ++
        s.line.activity) ∧
  (∀ (s : State) (ds : List Device), s.line.env = .bus ds →
    (∀ d ∈ ds, d.mode = .idle ∨ d.mode = .deselected ∨ (∃ k v, d.mode = .romCmd k v) ∨
      (∃ k ok, d.mode = .matchRom k ok) ∨ (∃ n ph, d.mode = .search n ph false) ∨
      ∃ n c, d.mode = .search n .recvDir c) →
    (after .readByte s).data = 0xFF) ∧
  (∀ s : State, s.line.env = .oracle →
    s.line.draws = [false, false, false, false, true, false, true, false] → (after .readByte s).data = 0x50)

/-- R115: an empty bus reads as all ones, and nine such bytes fail the frame check because crc8(0xFF ×8) = 0xC9. -/
def Obligations.EmptyBusReadsAllOnes : Prop :=
  (∀ s : State, s.line.env = .bus [] →
    (after .readByte s).data = 0xFF ∧ (after .readByte s).line.env = .bus [] ∧
    (after .readBit s).data = 0x01 ∧ (after .readBit s).line.env = .bus []) ∧
  crc8 (List.replicate 8 0xFF) = 0xC9 ∧ frameValid (List.replicate 9 0xFF) = false

/-- R119, R168: the loopback stub is a queue of the bits written, and reads 1 when it is empty; a written byte
comes back from it, bit 0 first, by READ_BYTE or by eight READ_BITs; the bits of 0xA5 are 1,0,1,0,0,1,0,1. -/
def Obligations.LoopbackReturnsTheWrittenByte : Prop :=
  (∀ (p : Params) (l : Line) (q : List Bool) (b : Bool), l.env = .loopback q →
    (lineWriteBit p b l).env = .loopback (q ++ [b]) ∧
    (lineReadBit p l).1 = q.headD true ∧ (lineReadBit p l).2.env = .loopback q.tail) ∧
  (List.range 8).map (fun i => (0xA5 : Byte).getLsbD i) = [true, false, true, false, false, true, false, true] ∧
  ∀ (s : State) (v : Byte), s.pending = some { op := .writeByte, operand := v } → s.line.env = .loopback [] →
    (after .readByte (after .writeByte s)).data = v ∧
    (after .readByte (after .writeByte s)).line.env = .loopback [] ∧
    (∀ k, k < 8 → ((after .readBit)^[k + 1] (after .writeByte s)).data = if v.getLsbD k then 0x01 else 0x00)

/-- 44_bus_environment.md section 3: a write slot applies each device's own rule, and a read slot returns the AND
of what the candidates of a search send in it, 1 when none sends, where no device is selected or unknown; a device
that is no candidate or is deselected sends nothing, whatever slots follow, until the next reset; a device that
waits for a direction sends nothing in a read slot and goes on waiting; an idle, selected, deselected or unknown
device ignores a write slot, and a read slot changes only a device in a search. What selected and unknown devices
send together in a read slot is one free draw (log entries 8 and 15). -/
def Obligations.BusSlotsActOnEveryDevice : Prop :=
  ∀ (p : Params) (l : Line) (ds : List Device) (b : Bool), l.env = .bus ds →
    (lineWriteBit p b l).env = .bus (ds.map (fun d => { d with mode := modeAfterWrite p d.rom b d.mode })) ∧
    (lineReadBit p l).2.env = .bus (ds.map (fun d => { d with mode := modeAfterRead d.mode })) ∧
    ((∀ d ∈ ds, d.mode ≠ .selected ∧ d.mode ≠ .unknown) →
      ((lineReadBit p l).1 = true ↔
        ∀ d ∈ ds, ∀ n, (d.mode = .search n .sendBit true → romBit d.rom n = true) ∧
          (d.mode = .search n .sendCmp true → romBit d.rom n = false))) ∧
    ((∃ d ∈ ds, d.mode = .selected ∨ d.mode = .unknown) →
      (lineReadBit p l).1 = ((nextDraw l).1 && ds.all Device.level)) ∧
    (∀ (d : Device) (n : Nat) (ph : SearchPhase), d.mode = .search n ph false →
      d.level = true ∧ d.sendsFree = false ∧
      ((∃ m ph', modeAfterRead d.mode = .search m ph' false) ∧
       ((∃ m ph', modeAfterWrite p d.rom b d.mode = .search m ph' false) ∨
        modeAfterWrite p d.rom b d.mode = .deselected))) ∧
    (∀ (d : Device) (n : Nat) (c : Bool), d.mode = .search n .recvDir c →
      d.level = true ∧ d.sendsFree = false ∧ modeAfterRead d.mode = d.mode) ∧
    (∀ (d : Device) (slots : List (Option Bool)), d.mode = .deselected ∨ (∃ n ph, d.mode = .search n ph false) →
      let e := slots.foldl (fun e slot => slot.elim e.afterRead (fun v => e.afterWrite p v)) d
      e.level = true ∧ e.sendsFree = false) ∧
    (∀ r : RomCode, modeAfterWrite p r b .idle = .idle ∧ modeAfterWrite p r b .selected = .selected ∧
      modeAfterWrite p r b .deselected = .deselected ∧ modeAfterWrite p r b .unknown = .unknown) ∧
    (∀ m : DeviceMode, (∀ n ph c, m ≠ .search n ph c) → modeAfterRead m = m)

/-- 44_bus_environment.md section 3 and 41_byte_transport.md: after a reset, with three different ROM command
bytes (log entry 13), the byte SKIP_ROM selects every device, MATCH_ROM followed by the eight bytes of a ROM code,
byte 0 first, selects exactly the devices with that code, SEARCH_ROM makes every device a candidate at position 1,
and any other byte deselects every device. -/
def Obligations.RomCommandsAddressDevices : Prop :=
  ∀ (p : Params) (l : Line) (ds : List Device) (r : RomCode), p.wf = true → l.env = .bus ds →
    (lineWriteByte p p.skipRomCode (busReset p l).2).env = .bus (ds.map (fun d => { d with mode := .selected })) ∧
    (r.toList.foldl (fun m v => lineWriteByte p v m) (lineWriteByte p p.matchRomCode (busReset p l).2)).env =
      .bus (ds.map (fun d => { d with mode := if d.rom = r then .selected else .deselected })) ∧
    (lineWriteByte p p.searchRomCode (busReset p l).2).env =
      .bus (ds.map (fun d => { d with mode := .search 1 .sendBit true })) ∧
    (∀ v, v ≠ p.skipRomCode → v ≠ p.matchRomCode → v ≠ p.searchRomCode →
      (lineWriteByte p v (busReset p l).2).env = .bus (ds.map (fun d => { d with mode := .deselected })))

/-! ## ROM search -/

/-- R10: the 64 positions of a ROM code, read after write, and a ROM code is its 64 positions. -/
def Obligations.RomPositionsReadAfterWrite : Prop :=
  (∀ (r : RomCode) (n m : Nat) (b : Bool), 1 ≤ n → n ≤ 64 → 1 ≤ m → m ≤ 64 →
    romBit (setRomBit r n b) m = if m = n then b else romBit r m) ∧
  (∀ r t : RomCode, (∀ n, 1 ≤ n → n ≤ 64 → romBit r n = romBit t n) → r = t) ∧
  (∀ (r : RomCode) (k : Fin 8) (i : Nat), i < 8 → romBit r (8 * k.val + i + 1) = r[k].getLsbD i)

/-- R123: a search pass, told from its line activity. Either the enumeration is exhausted, or nobody is present,
or the pass stops at the first position whose two reads are both 1, or all 64 positions are made; at each position
made the direction is that of R126, it is written on the line and stored in ROM, and LD and LDF come from the
highest position at which a discrepancy was resolved as 0. The line activity is the record of what the line port
did (log entry 6). -/
def Obligations.SearchPassFollowsItsLineActivity : Prop :=
  ∀ s : State,
    let t := searchPass s
    (s.ldf = true ∧ t = { s with result := false }) ∨
    (s.ldf = false ∧
      t.line.activity = .reset false :: s.line.activity ∧
      t.result = false ∧ t.presence = false ∧ t.serr = false ∧ t.crcOk = false ∧ t.ld = 0 ∧ t.ldf = false ∧
      t.rom = s.rom) ∨
    (s.ldf = false ∧ ∃ xs : List Position, xs.length < 64 ∧
      t.line.activity.reverse = s.line.activity.reverse ++ .reset true :: byteSlots s.params.searchRomCode ++
        xs.flatMap Position.activity ++ [.readSlot true, .readSlot true] ∧
      DirectionsFollow s.ld s.rom xs ∧ RomHolds s.rom t.rom xs ∧
      t.result = false ∧ t.presence = true ∧ t.serr = true ∧ t.crcOk = false ∧ t.ld = 0 ∧ t.ldf = false) ∨
    (s.ldf = false ∧ ∃ xs : List Position, xs.length = 64 ∧
      t.line.activity.reverse = s.line.activity.reverse ++ .reset true :: byteSlots s.params.searchRomCode ++
        xs.flatMap Position.activity ∧
      DirectionsFollow s.ld s.rom xs ∧ RomHolds s.rom t.rom xs ∧ IsLastZero t.ld xs ∧
      t.ldf = decide (t.ld = 0) ∧
      t.crcOk = decide (crc8 (t.rom.toList.take 7) = t.rom[7]) ∧
      t.result = true ∧ t.presence = true ∧ t.serr = false)

/-- 42_rom_search.md section 1: SEARCH_FIRST is one search pass from LD = 0 and `s.ldf` = 0, so it always uses the
bus; on an empty bus it makes one reset and returns RESULT = 0; with one device it returns that device's code,
with LD = 0 and LDF = 1, and the code of the section's example passes the CRC. The one-device clause rests on
three different ROM command bytes (log entry 13), and the line activity on the record of the line (log entry 6). -/
def Obligations.SearchFirstStartsAnEnumeration : Prop :=
  encode .searchFirst = 0b00000110 ∧
  (∀ s : State, exec .searchFirst s =
    .next { searchPass { s with ld := 0, ldf := false } with
      pending := none
      line := (searchPass { s with ld := 0, ldf := false }).line.overhead s.params }) ∧
  (∀ s : State, (after .searchFirst s).line.activity ≠ s.line.activity) ∧
  (∀ s : State, s.line.env = .bus [] →
    (after .searchFirst s).result = false ∧
    (after .searchFirst s).line.activity = .reset false :: s.line.activity) ∧
  (∀ (s : State) (d : Device), s.line.env = .bus [d] → s.params.wf = true →
    (after .searchFirst s).result = true ∧ (after .searchFirst s).rom = d.rom ∧
    (after .searchFirst s).crcOk = romValid d.rom ∧ (after .searchFirst s).ld = 0 ∧
    (after .searchFirst s).ldf = true) ∧
  romValid #v[0x28, 0xFF, 0x4C, 0x3A, 0x91, 0x16, 0x04, 0x77] = true

/-- R122, R124: SEARCH_NEXT is one search pass; with `s.ldf` = 1 it leaves the bus untouched and changes RESULT
only, now and on every repetition; with LD = 0 and `s.ldf` = 0, as after reset, it is SEARCH_FIRST. -/
def Obligations.SearchNextContinuesAnEnumeration : Prop :=
  encode .searchNext = 0b00000111 ∧
  (∀ s : State, exec .searchNext s =
    .next { searchPass s with pending := none, line := (searchPass s).line.overhead s.params }) ∧
  (∀ s : State, s.ldf = true →
    exec .searchNext s = .next { s with
      result := false
      pending := none
      line := { s.line with timebase := s.line.timebase + s.params.timing.cmd } } ∧
    (∀ k, ((after .searchNext)^[k + 1] s).result = false ∧ ((after .searchNext)^[k + 1] s).ldf = true ∧
      ((after .searchNext)^[k + 1] s).line.activity = s.line.activity)) ∧
  (∀ s : State, s.ldf = false → s.ld = 0 → exec .searchNext s = exec .searchFirst s)

/-- R137: the invariants every command keeps, from any state that has them. -/
def Obligations.EveryCommandKeepsTheSearchInvariants : Prop :=
  ∀ (i : Instr) (s t : State), exec i s = .next t →
    (s.ld ≤ 64 → t.ld ≤ 64) ∧
    ((s.ldf = true → s.ld = 0) → t.ldf = true → t.ld = 0) ∧
    ((i = .searchFirst ∨ (i = .searchNext ∧ s.ldf = false)) → t.result = false → t.ld = 0 ∧ t.ldf = false) ∧
    ((i = .searchFirst ∨ i = .searchNext) → t.serr = true → t.result = false)

/-- 60_exceptions.md section 1 and 42_rom_search.md section 3: what STATUS reports after SEARCH_NEXT is the first
of exhausted, no presence, data error and CRC mismatch that the pass met. The order in which the bits are read is
the model's deduction (log entry 11). -/
def Obligations.StatusReportsTheSearchOutcome : Prop :=
  ∀ s : State,
    let t := after .searchNext s
    (t.searchReport = .exhausted ↔ s.ldf = true) ∧
    (t.searchReport = .noPresence ↔ s.ldf = false ∧ t.line.activity = .reset false :: s.line.activity) ∧
    (t.searchReport = .searchDataError ↔
      s.ldf = false ∧ ∃ acts, t.line.activity = .readSlot true :: .readSlot true :: acts) ∧
    (t.searchReport = .romCrcMismatch ↔ t.result = true ∧ romValid t.rom = false) ∧
    (t.searchReport = .found ↔ t.result = true ∧ romValid t.rom = true)

/-- 42_rom_search.md section 2: no command reads FILTER or FCTRL: changing them changes nothing else of what a
command does. -/
def Obligations.FilterNeverAffectsACommand : Prop :=
  ∀ (i : Instr) (s : State) (f : Byte) (e : Bool),
    ∃ t, exec i s = .next t ∧
      exec i { s with filter := f, filterEn := e } = .next { t with filter := f, filterEn := e }

/-- 10_state.md section 2 and 70_reset_and_hazards.md section 3: DATA is never read by the block after acceptance:
with a command pending, another value of DATA changes nothing but a DATA that the command does not write. -/
def Obligations.OperandIsLatchedAtAcceptance : Prop :=
  ∀ (i : Instr) (s : State) (p : Pending) (d : Byte), s.pending = some p →
    ∃ t, exec i s = .next t ∧
      exec i { s with data := d } =
        .next { t with data := if i = .readBit ∨ i = .readByte then t.data else d }

/-- R165: at one search position, when every device is at it, candidate or not, the two reads are the AND of the
candidates' bits and of their complements: both 1 exactly when no candidate is left, both 0 exactly when the
candidates disagree, and else the bit they share. -/
def Obligations.SearchReadsTellTheCandidatesBits : Prop :=
  ∀ (p : Params) (l : Line) (ds : List Device) (n : Nat), l.env = .bus ds →
    (∀ d ∈ ds, ∃ c, d.mode = .search n .sendBit c) →
    let a := (lineReadBit p l).1
    let b := (lineReadBit p (lineReadBit p l).2).1
    (a = true ↔ ∀ d ∈ ds, d.mode = .search n .sendBit true → romBit d.rom n = true) ∧
    (b = true ↔ ∀ d ∈ ds, d.mode = .search n .sendBit true → romBit d.rom n = false) ∧
    ((a = true ∧ b = true) ↔ ∀ d ∈ ds, d.mode ≠ .search n .sendBit true) ∧
    ((a = false ∧ b = false) ↔
      (∃ d ∈ ds, d.mode = .search n .sendBit true ∧ romBit d.rom n = true) ∧
      (∃ d ∈ ds, d.mode = .search n .sendBit true ∧ romBit d.rom n = false)) ∧
    (a ≠ b → ∀ d ∈ ds, d.mode = .search n .sendBit true → romBit d.rom n = a)

/-- R166: on a conforming bus with a device, a pass that uses the bus never meets a data error and completes with
the code of a device, whatever LD and ROM were; exactly the devices with that code stay selected. The three ROM
command bytes are assumed to differ (log entry 13). -/
def Obligations.ConformingBusPassFindsADevice : Prop :=
  ∀ (s : State) (ds : List Device), s.params.wf = true → s.line.env = .bus ds → ds ≠ [] → s.ldf = false →
    let t := searchPass s
    t.result = true ∧ t.presence = true ∧ t.serr = false ∧
    (∃ d ∈ ds, d.rom = t.rom) ∧
    t.line.env = .bus (ds.map (fun d => { d with mode := if d.rom = t.rom then .selected else .deselected }))

/-- R139: on a conforming bus with N ≥ 1 devices of distinct codes, SEARCH_FIRST and then SEARCH_NEXT until RESULT
= 0 return exactly the N codes, in tree order, LDF becoming 1 at the N-th and the next SEARCH_NEXT returning
RESULT = 0. The three ROM command bytes are assumed to differ (log entry 13). -/
def Obligations.EnumerationFindsEveryDeviceInTreeOrder : Prop :=
  ∀ (s : State) (ds : List Device), s.params.wf = true → s.line.env = .bus ds → ds ≠ [] →
    (ds.map (fun d => d.rom)).Nodup →
    let r := enumeration ds.length s
    (r.1.map (fun t => t.rom)).Perm (ds.map (fun d => d.rom)) ∧
    (r.1.map (fun t => romKey t.rom)).Pairwise (fun a b => a < b) ∧
    (∀ t ∈ r.1, t.result = true ∧ t.serr = false ∧ t.crcOk = romValid t.rom) ∧
    (∀ t ∈ r.1.dropLast, t.ldf = false) ∧ (∀ t ∈ r.1.getLast?, t.ldf = true) ∧
    r.2.result = false ∧ r.2.ldf = true

/-- 42_rom_search.md section 3: SEARCH_FIRST on a conforming bus returns the device code that is first in tree
order, whatever the search state was, so a new enumeration always starts from the same code. -/
def Obligations.SearchFirstFindsTheFirstCode : Prop :=
  ∀ (s : State) (ds : List Device), s.params.wf = true → s.line.env = .bus ds → ds ≠ [] →
    (∃ d ∈ ds, d.rom = (after .searchFirst s).rom) ∧
    (∀ d ∈ ds, d.rom = (after .searchFirst s).rom ∨ romKey (after .searchFirst s).rom < romKey d.rom)

/-- 44_bus_environment.md section 4: a line stuck low answers every reset and reads 0 in every slot; a search pass
on it reads 0 and 0 at every position, so that each is a discrepancy, and completes with the line still stuck low;
SEARCH_FIRST returns the all-zero code with CRC_OK = 1 and LD = 64. The reads are told from the record of the line
(log entry 6). -/
def Obligations.StuckLowLineReadsAsTheZeroCode : Prop :=
  ∀ s : State, s.line.env = .stuckLow →
    (after .busReset s).result = true ∧ (after .readBit s).data = 0x00 ∧ (after .readByte s).data = 0x00 ∧
    (s.ldf = false → (searchPass s).result = true ∧ (searchPass s).serr = false ∧
      (searchPass s).line.env = .stuckLow ∧
      ∃ xs : List Position, xs.length = 64 ∧ (∀ x ∈ xs, x.idBit = false ∧ x.cmpIdBit = false) ∧
        (searchPass s).line.activity.reverse = s.line.activity.reverse ++
          .reset true :: byteSlots s.params.searchRomCode ++ xs.flatMap Position.activity) ∧
    (after .searchFirst s).result = true ∧ (after .searchFirst s).rom = Vector.replicate 8 0x00 ∧
    (after .searchFirst s).crcOk = true ∧ (after .searchFirst s).ld = 64 ∧ (after .searchFirst s).ldf = false

/-! ## CRC-8 validator -/

/-- R147: CRC_CLEAR sets CRC to 0 and RESULT to 1, without line activity. -/
def Obligations.CrcClearSeedsTheAccumulator : Prop :=
  encode .crcClear = 0b00001000 ∧
  ∀ s : State, exec .crcClear s =
    .next { s with
      crc := 0x00
      result := true
      pending := none
      line := { s.line with timebase := s.line.timebase + s.params.timing.cmd } }

/-- R148: CRC_UPDATE folds the latched operand into CRC; RESULT says whether the new value is 0; no line activity. -/
def Obligations.CrcUpdateFoldsTheOperand : Prop :=
  encode .crcUpdate = 0b00001001 ∧
  (∀ (s : State) (v : Byte), s.pending = some { op := .crcUpdate, operand := v } →
    exec .crcUpdate s =
      .next { s with
        crc := crc8Step s.crc v
        result := decide (crc8Step s.crc v = 0x00)
        pending := none
        line := { s.line with timebase := s.line.timebase + s.params.timing.cmd } }) ∧
  crc8Step 0x00 0x00 = 0x00 ∧ crc8Step 0x00 0x01 = 0x5E ∧ (∀ c : Byte, crc8Step c c = 0x00)

/-- R150: one byte of the CRC is a linear bijection of the exclusive or of accumulator and byte. -/
def Obligations.CrcStepIsLinear : Prop :=
  (∀ c b : Byte, crc8Step c b = crc8Step (c ^^^ b) 0x00) ∧
  (∀ x y : Byte, crc8Step (x ^^^ y) 0x00 = crc8Step x 0x00 ^^^ crc8Step y 0x00) ∧
  crc8Step 0x00 0x00 = 0x00 ∧ Function.Bijective (fun x : Byte => crc8Step x 0x00) ∧
  (∀ c b : Byte, crc8Step c b = 0x00 ↔ b = c)

/-- R151: a frame is valid exactly when the CRC over all its bytes, check byte included, is 0. -/
def Obligations.ValidFrameHasZeroCrc : Prop :=
  ∀ data : List Byte, 2 ≤ data.length →
    (frameValid data = true ↔ some (crc8 data.dropLast) = data.getLast?) ∧
    (frameValid data = true ↔ crc8 data = 0x00)

/-- R152: CRC_CLEAR and then a CRC_UPDATE for each of the bytes read leave RESULT = 1 exactly when the frame is
valid, and after all but the last byte CRC holds the value to compare with it. -/
def Obligations.CrcCommandsCheckAScratchpad : Prop :=
  ∀ (s : State) (data : List Byte), s.resetPin = false → data.length = 9 →
    ((data.foldl hostCrcUpdate (after .crcClear s)).result = true ↔ frameValid data = true) ∧
    ((data.take 8).foldl hostCrcUpdate (after .crcClear s)).crc = crc8 (data.take 8)

/-- R154: flipping any one of the 64 bits of a valid ROM code makes it invalid; some multi-bit errors are not
detected, and the all-zero code is valid. -/
def Obligations.SingleBitErrorsAreDetected : Prop :=
  (∀ (r : RomCode) (n : Nat), romValid r = true → 1 ≤ n → n ≤ 64 →
    romValid (setRomBit r n (!romBit r n)) = false) ∧
  (∃ r t : RomCode, r ≠ t ∧ romValid r = true ∧ romValid t = true) ∧
  romValid (Vector.replicate 8 0x00) = true

/-! ## Whole-machine rules and invariants -/

/-- R40: which command writes which state; every element not named keeps its value, and an illegal code writes
ILLCMD only. -/
def Obligations.CommandsWriteOnlyTheirState : Prop :=
  (∀ (i : Instr) (s t : State), exec i s = .next t →
    t.pending = none ∧ SameOutside s t ∧ t.filter = s.filter ∧ t.filterEn = s.filterEn ∧
    t.illcmd = s.illcmd ∧ t.overrun = s.overrun ∧
    (i ≠ .readBit → i ≠ .readByte → t.data = s.data) ∧
    (i ≠ .crcClear → i ≠ .crcUpdate → t.crc = s.crc) ∧
    (i ≠ .busReset → i ≠ .searchFirst → i ≠ .searchNext → t.presence = s.presence) ∧
    (i = .nop ∨ i = .writeBit ∨ i = .readBit ∨ i = .writeByte ∨ i = .readByte → t.result = s.result) ∧
    (i ≠ .searchFirst → i ≠ .searchNext →
      t.ld = s.ld ∧ t.ldf = s.ldf ∧ t.rom = s.rom ∧ t.serr = s.serr ∧ t.crcOk = s.crcOk ∧ t.pass = s.pass) ∧
    (i = .nop ∨ i = .crcClear ∨ i = .crcUpdate →
      t.line = { s.line with timebase := s.line.timebase + s.params.timing.cmd })) ∧
  (∀ (s : State) (v : Byte), s.pending = none → s.resetPin = false → (∀ i, encode i ≠ v) →
    s.hostWrite .cmd v = { s with illcmd := true })

/-- 10_state.md section 3 and 70_reset_and_hazards.md section 3: in a step, LD, `s.ldf` and ROM0..ROM7 change only
when a search command completes or the reset input moves: no host write and no other command reaches the search
state. -/
def Obligations.OnlySearchOrResetChangesTheSearchState : Prop :=
  ∀ s t : State, step s = .next t →
    (t.ld = s.ld ∧ t.ldf = s.ldf ∧ t.rom = s.rom) ∨
    (∃ p, s.pending = some p ∧ (p.op = .searchFirst ∨ p.op = .searchNext) ∧ t.pending = none) ∨
    (∃ a rest, s.inputs = .resetLine a :: rest)

/-- 00_scope.md section 7 and 20_memory.md section 4: a step never changes the parameters, takes the inputs in
order, and only adds to what the host has read and to what the line has carried. The lists of inputs, of responses
and of line activity are the model's own (log entries 3, 17 and 6), and that a block reset keeps the time base is
its choice (log entry 19). -/
def Obligations.StepKeepsParametersAndHistory : Prop :=
  ∀ s t : State, step s = .next t →
    t.params = s.params ∧ t.inputs <:+ s.inputs ∧ s.responses <:+ t.responses ∧
    s.line.activity <:+ t.line.activity ∧ s.line.timebase ≤ t.line.timebase

/-- 44_bus_environment.md section 1 and 40_line_driver.md section 1: no host access reaches the line: a step that
takes a host write or a host read leaves the line port, the time base and the environment as they are. -/
def Obligations.HostAccessesNeverReachTheLine : Prop :=
  ∀ (s t : State) (rest : List Input),
    ((∃ addr width v, s.inputs = .write addr width v :: rest) ∨ ∃ addr width, s.inputs = .read addr width :: rest) →
    step s = .next t → t.line = s.line

/-- The invariant of the block (R26, R92, R127, R137, R153, R190) is kept by every step, from every state that has
it. -/
def Obligations.EveryStepKeepsTheInvariant : Prop :=
  ∀ s t : State, Inv s → step s = .next t → Inv t

/-- The invariant holds after reset. -/
def Obligations.ResetMeetsTheInvariant : Prop := Inv State.reset

/-- 44_bus_environment.md section 3: a device that comes onto the line starts in its initial mode idle; a device
that joins or leaves a bus leaves the others' sessions as they are; a change of the environment reaches nothing of
the block. How the outside changes the environment is the model's choice (log entries 3 and 23). -/
def Obligations.NewDevicesStartIdle : Prop :=
  (∀ r : RomCode, Device.initial r = { rom := r, mode := .idle }) ∧
  (∀ (s : State) (c : EnvChange) (rest : List Input), s.inputs = .environment c :: rest →
    step s = .next { s with inputs := rest, line := { s.line with env := s.line.env.change c } }) ∧
  (∀ (e : Env) (rs : List RomCode),
    e.change (.bus rs) = .bus (rs.map (fun r => { rom := r, mode := .idle }))) ∧
  (∀ (ds : List Device) (r : RomCode),
    (Env.bus ds).change (.join r) = .bus (ds ++ [{ rom := r, mode := .idle }])) ∧
  (∀ (ds es : List Device) (d : Device),
    (Env.bus (ds ++ d :: es)).change (.leave ds.length) = .bus (ds ++ es)) ∧
  (∀ (e : Env) (c : EnvChange) (ds : List Device), e.change c = .bus ds →
    ∀ d ∈ ds, d.mode = .idle ∨ ∃ es, e = .bus es ∧ d ∈ es)
end

