-- ==== Sys2Proof/Laws/State.lean ====
section
/-! SUPPORT. What each named update of State leaves in each field, one law per field per update (each update's laws as
one conjunction, which simp uses field by field), and the same for the updates of Line. -/

namespace Sys2Proof.Machine

/-- The fields after `setLine`. -/
@[simp] theorem State.setLine_fields (s : State) (l : Line) :
    (s.setLine l).data = s.data ∧
    (s.setLine l).filter = s.filter ∧
    (s.setLine l).filterEn = s.filterEn ∧
    (s.setLine l).crc = s.crc ∧
    (s.setLine l).illcmd = s.illcmd ∧
    (s.setLine l).overrun = s.overrun ∧
    (s.setLine l).presence = s.presence ∧
    (s.setLine l).result = s.result ∧
    (s.setLine l).crcOk = s.crcOk ∧
    (s.setLine l).serr = s.serr ∧
    (s.setLine l).ld = s.ld ∧
    (s.setLine l).ldf = s.ldf ∧
    (s.setLine l).rom = s.rom ∧
    (s.setLine l).pending = s.pending ∧
    (s.setLine l).pass = s.pass ∧
    (s.setLine l).resetPin = s.resetPin ∧
    (s.setLine l).line = l ∧
    (s.setLine l).inputs = s.inputs ∧
    (s.setLine l).responses = s.responses ∧
    (s.setLine l).readDraws = s.readDraws ∧
    (s.setLine l).params = s.params :=
  ⟨rfl, rfl, rfl, rfl, rfl, rfl, rfl, rfl, rfl, rfl, rfl, rfl, rfl, rfl, rfl, rfl, rfl, rfl, rfl, rfl, rfl⟩

/-- The fields after `complete`. -/
@[simp] theorem State.complete_fields (s : State) :
    (s.complete).data = s.data ∧
    (s.complete).filter = s.filter ∧
    (s.complete).filterEn = s.filterEn ∧
    (s.complete).crc = s.crc ∧
    (s.complete).illcmd = s.illcmd ∧
    (s.complete).overrun = s.overrun ∧
    (s.complete).presence = s.presence ∧
    (s.complete).result = s.result ∧
    (s.complete).crcOk = s.crcOk ∧
    (s.complete).serr = s.serr ∧
    (s.complete).ld = s.ld ∧
    (s.complete).ldf = s.ldf ∧
    (s.complete).rom = s.rom ∧
    (s.complete).pending = none ∧
    (s.complete).pass = s.pass ∧
    (s.complete).resetPin = s.resetPin ∧
    (s.complete).line = s.line.overhead s.params ∧
    (s.complete).inputs = s.inputs ∧
    (s.complete).responses = s.responses ∧
    (s.complete).readDraws = s.readDraws ∧
    (s.complete).params = s.params :=
  ⟨rfl, rfl, rfl, rfl, rfl, rfl, rfl, rfl, rfl, rfl, rfl, rfl, rfl, rfl, rfl, rfl, rfl, rfl, rfl, rfl, rfl⟩

/-- The fields after `accept`. -/
@[simp] theorem State.accept_fields (s : State) (i : Instr) :
    (s.accept i).data = s.data ∧
    (s.accept i).filter = s.filter ∧
    (s.accept i).filterEn = s.filterEn ∧
    (s.accept i).crc = s.crc ∧
    (s.accept i).illcmd = s.illcmd ∧
    (s.accept i).overrun = s.overrun ∧
    (s.accept i).presence = s.presence ∧
    (s.accept i).result = s.result ∧
    (s.accept i).crcOk = s.crcOk ∧
    (s.accept i).serr = s.serr ∧
    (s.accept i).ld = s.ld ∧
    (s.accept i).ldf = s.ldf ∧
    (s.accept i).rom = s.rom ∧
    (s.accept i).pending = some { op := i, operand := s.data } ∧
    (s.accept i).pass = s.pass ∧
    (s.accept i).resetPin = s.resetPin ∧
    (s.accept i).line = s.line ∧
    (s.accept i).inputs = s.inputs ∧
    (s.accept i).responses = s.responses ∧
    (s.accept i).readDraws = s.readDraws ∧
    (s.accept i).params = s.params :=
  ⟨rfl, rfl, rfl, rfl, rfl, rfl, rfl, rfl, rfl, rfl, rfl, rfl, rfl, rfl, rfl, rfl, rfl, rfl, rfl, rfl, rfl⟩

/-- The fields after `flagIllcmd`. -/
@[simp] theorem State.flagIllcmd_fields (s : State) :
    (s.flagIllcmd).data = s.data ∧
    (s.flagIllcmd).filter = s.filter ∧
    (s.flagIllcmd).filterEn = s.filterEn ∧
    (s.flagIllcmd).crc = s.crc ∧
    (s.flagIllcmd).illcmd = true ∧
    (s.flagIllcmd).overrun = s.overrun ∧
    (s.flagIllcmd).presence = s.presence ∧
    (s.flagIllcmd).result = s.result ∧
    (s.flagIllcmd).crcOk = s.crcOk ∧
    (s.flagIllcmd).serr = s.serr ∧
    (s.flagIllcmd).ld = s.ld ∧
    (s.flagIllcmd).ldf = s.ldf ∧
    (s.flagIllcmd).rom = s.rom ∧
    (s.flagIllcmd).pending = s.pending ∧
    (s.flagIllcmd).pass = s.pass ∧
    (s.flagIllcmd).resetPin = s.resetPin ∧
    (s.flagIllcmd).line = s.line ∧
    (s.flagIllcmd).inputs = s.inputs ∧
    (s.flagIllcmd).responses = s.responses ∧
    (s.flagIllcmd).readDraws = s.readDraws ∧
    (s.flagIllcmd).params = s.params :=
  ⟨rfl, rfl, rfl, rfl, rfl, rfl, rfl, rfl, rfl, rfl, rfl, rfl, rfl, rfl, rfl, rfl, rfl, rfl, rfl, rfl, rfl⟩

/-- The fields after `flagOverrun`. -/
@[simp] theorem State.flagOverrun_fields (s : State) :
    (s.flagOverrun).data = s.data ∧
    (s.flagOverrun).filter = s.filter ∧
    (s.flagOverrun).filterEn = s.filterEn ∧
    (s.flagOverrun).crc = s.crc ∧
    (s.flagOverrun).illcmd = s.illcmd ∧
    (s.flagOverrun).overrun = true ∧
    (s.flagOverrun).presence = s.presence ∧
    (s.flagOverrun).result = s.result ∧
    (s.flagOverrun).crcOk = s.crcOk ∧
    (s.flagOverrun).serr = s.serr ∧
    (s.flagOverrun).ld = s.ld ∧
    (s.flagOverrun).ldf = s.ldf ∧
    (s.flagOverrun).rom = s.rom ∧
    (s.flagOverrun).pending = s.pending ∧
    (s.flagOverrun).pass = s.pass ∧
    (s.flagOverrun).resetPin = s.resetPin ∧
    (s.flagOverrun).line = s.line ∧
    (s.flagOverrun).inputs = s.inputs ∧
    (s.flagOverrun).responses = s.responses ∧
    (s.flagOverrun).readDraws = s.readDraws ∧
    (s.flagOverrun).params = s.params :=
  ⟨rfl, rfl, rfl, rfl, rfl, rfl, rfl, rfl, rfl, rfl, rfl, rfl, rfl, rfl, rfl, rfl, rfl, rfl, rfl, rfl, rfl⟩

/-- The fields after `clearErr`. -/
@[simp] theorem State.clearErr_fields (s : State) (v : Byte) :
    (s.clearErr v).data = s.data ∧
    (s.clearErr v).filter = s.filter ∧
    (s.clearErr v).filterEn = s.filterEn ∧
    (s.clearErr v).crc = s.crc ∧
    (s.clearErr v).illcmd = (s.illcmd && !v.getLsbD 0) ∧
    (s.clearErr v).overrun = (s.overrun && !v.getLsbD 1) ∧
    (s.clearErr v).presence = s.presence ∧
    (s.clearErr v).result = s.result ∧
    (s.clearErr v).crcOk = s.crcOk ∧
    (s.clearErr v).serr = s.serr ∧
    (s.clearErr v).ld = s.ld ∧
    (s.clearErr v).ldf = s.ldf ∧
    (s.clearErr v).rom = s.rom ∧
    (s.clearErr v).pending = s.pending ∧
    (s.clearErr v).pass = s.pass ∧
    (s.clearErr v).resetPin = s.resetPin ∧
    (s.clearErr v).line = s.line ∧
    (s.clearErr v).inputs = s.inputs ∧
    (s.clearErr v).responses = s.responses ∧
    (s.clearErr v).readDraws = s.readDraws ∧
    (s.clearErr v).params = s.params :=
  ⟨rfl, rfl, rfl, rfl, rfl, rfl, rfl, rfl, rfl, rfl, rfl, rfl, rfl, rfl, rfl, rfl, rfl, rfl, rfl, rfl, rfl⟩

/-- The fields after `setPresenceResult`. -/
@[simp] theorem State.setPresenceResult_fields (s : State) (p : Bool) :
    (s.setPresenceResult p).data = s.data ∧
    (s.setPresenceResult p).filter = s.filter ∧
    (s.setPresenceResult p).filterEn = s.filterEn ∧
    (s.setPresenceResult p).crc = s.crc ∧
    (s.setPresenceResult p).illcmd = s.illcmd ∧
    (s.setPresenceResult p).overrun = s.overrun ∧
    (s.setPresenceResult p).presence = p ∧
    (s.setPresenceResult p).result = p ∧
    (s.setPresenceResult p).crcOk = s.crcOk ∧
    (s.setPresenceResult p).serr = s.serr ∧
    (s.setPresenceResult p).ld = s.ld ∧
    (s.setPresenceResult p).ldf = s.ldf ∧
    (s.setPresenceResult p).rom = s.rom ∧
    (s.setPresenceResult p).pending = s.pending ∧
    (s.setPresenceResult p).pass = s.pass ∧
    (s.setPresenceResult p).resetPin = s.resetPin ∧
    (s.setPresenceResult p).line = s.line ∧
    (s.setPresenceResult p).inputs = s.inputs ∧
    (s.setPresenceResult p).responses = s.responses ∧
    (s.setPresenceResult p).readDraws = s.readDraws ∧
    (s.setPresenceResult p).params = s.params :=
  ⟨rfl, rfl, rfl, rfl, rfl, rfl, rfl, rfl, rfl, rfl, rfl, rfl, rfl, rfl, rfl, rfl, rfl, rfl, rfl, rfl, rfl⟩

/-- The fields after `setCrc`. -/
@[simp] theorem State.setCrc_fields (s : State) (c : Byte) :
    (s.setCrc c).data = s.data ∧
    (s.setCrc c).filter = s.filter ∧
    (s.setCrc c).filterEn = s.filterEn ∧
    (s.setCrc c).crc = c ∧
    (s.setCrc c).illcmd = s.illcmd ∧
    (s.setCrc c).overrun = s.overrun ∧
    (s.setCrc c).presence = s.presence ∧
    (s.setCrc c).result = (c == 0x00) ∧
    (s.setCrc c).crcOk = s.crcOk ∧
    (s.setCrc c).serr = s.serr ∧
    (s.setCrc c).ld = s.ld ∧
    (s.setCrc c).ldf = s.ldf ∧
    (s.setCrc c).rom = s.rom ∧
    (s.setCrc c).pending = s.pending ∧
    (s.setCrc c).pass = s.pass ∧
    (s.setCrc c).resetPin = s.resetPin ∧
    (s.setCrc c).line = s.line ∧
    (s.setCrc c).inputs = s.inputs ∧
    (s.setCrc c).responses = s.responses ∧
    (s.setCrc c).readDraws = s.readDraws ∧
    (s.setCrc c).params = s.params :=
  ⟨rfl, rfl, rfl, rfl, rfl, rfl, rfl, rfl, rfl, rfl, rfl, rfl, rfl, rfl, rfl, rfl, rfl, rfl, rfl, rfl, rfl⟩

/-- The fields after `hostRead`. -/
@[simp] theorem State.hostRead_fields (s : State) (r : Reg) :
    (s.hostRead r).data = s.data ∧
    (s.hostRead r).filter = s.filter ∧
    (s.hostRead r).filterEn = s.filterEn ∧
    (s.hostRead r).crc = s.crc ∧
    (s.hostRead r).illcmd = s.illcmd ∧
    (s.hostRead r).overrun = s.overrun ∧
    (s.hostRead r).presence = s.presence ∧
    (s.hostRead r).result = s.result ∧
    (s.hostRead r).crcOk = s.crcOk ∧
    (s.hostRead r).serr = s.serr ∧
    (s.hostRead r).ld = s.ld ∧
    (s.hostRead r).ldf = s.ldf ∧
    (s.hostRead r).rom = s.rom ∧
    (s.hostRead r).pending = s.pending ∧
    (s.hostRead r).pass = s.pass ∧
    (s.hostRead r).resetPin = s.resetPin ∧
    (s.hostRead r).line = s.line ∧
    (s.hostRead r).inputs = s.inputs ∧
    (s.hostRead r).responses = s.readValue r :: s.responses ∧
    (s.hostRead r).readDraws = (if s.busy then s.readDraws + 1 else s.readDraws) ∧
    (s.hostRead r).params = s.params :=
  ⟨rfl, rfl, rfl, rfl, rfl, rfl, rfl, rfl, rfl, rfl, rfl, rfl, rfl, rfl, rfl, rfl, rfl, rfl, rfl, rfl, rfl⟩

/-- The fields after `passExhausted`. -/
@[simp] theorem State.passExhausted_fields (s : State) :
    (s.passExhausted).data = s.data ∧
    (s.passExhausted).filter = s.filter ∧
    (s.passExhausted).filterEn = s.filterEn ∧
    (s.passExhausted).crc = s.crc ∧
    (s.passExhausted).illcmd = s.illcmd ∧
    (s.passExhausted).overrun = s.overrun ∧
    (s.passExhausted).presence = s.presence ∧
    (s.passExhausted).result = false ∧
    (s.passExhausted).crcOk = s.crcOk ∧
    (s.passExhausted).serr = s.serr ∧
    (s.passExhausted).ld = s.ld ∧
    (s.passExhausted).ldf = s.ldf ∧
    (s.passExhausted).rom = s.rom ∧
    (s.passExhausted).pending = s.pending ∧
    (s.passExhausted).pass = s.pass ∧
    (s.passExhausted).resetPin = s.resetPin ∧
    (s.passExhausted).line = s.line ∧
    (s.passExhausted).inputs = s.inputs ∧
    (s.passExhausted).responses = s.responses ∧
    (s.passExhausted).readDraws = s.readDraws ∧
    (s.passExhausted).params = s.params :=
  ⟨rfl, rfl, rfl, rfl, rfl, rfl, rfl, rfl, rfl, rfl, rfl, rfl, rfl, rfl, rfl, rfl, rfl, rfl, rfl, rfl, rfl⟩

/-- The fields after `passNoPresence`. -/
@[simp] theorem State.passNoPresence_fields (s : State) :
    (s.passNoPresence).data = s.data ∧
    (s.passNoPresence).filter = s.filter ∧
    (s.passNoPresence).filterEn = s.filterEn ∧
    (s.passNoPresence).crc = s.crc ∧
    (s.passNoPresence).illcmd = s.illcmd ∧
    (s.passNoPresence).overrun = s.overrun ∧
    (s.passNoPresence).presence = s.presence ∧
    (s.passNoPresence).result = false ∧
    (s.passNoPresence).crcOk = false ∧
    (s.passNoPresence).serr = false ∧
    (s.passNoPresence).ld = 0 ∧
    (s.passNoPresence).ldf = false ∧
    (s.passNoPresence).rom = s.rom ∧
    (s.passNoPresence).pending = s.pending ∧
    (s.passNoPresence).pass = s.pass ∧
    (s.passNoPresence).resetPin = s.resetPin ∧
    (s.passNoPresence).line = s.line ∧
    (s.passNoPresence).inputs = s.inputs ∧
    (s.passNoPresence).responses = s.responses ∧
    (s.passNoPresence).readDraws = s.readDraws ∧
    (s.passNoPresence).params = s.params :=
  ⟨rfl, rfl, rfl, rfl, rfl, rfl, rfl, rfl, rfl, rfl, rfl, rfl, rfl, rfl, rfl, rfl, rfl, rfl, rfl, rfl, rfl⟩

/-- The fields after `passDataError`. -/
@[simp] theorem State.passDataError_fields (s : State) :
    (s.passDataError).data = s.data ∧
    (s.passDataError).filter = s.filter ∧
    (s.passDataError).filterEn = s.filterEn ∧
    (s.passDataError).crc = s.crc ∧
    (s.passDataError).illcmd = s.illcmd ∧
    (s.passDataError).overrun = s.overrun ∧
    (s.passDataError).presence = s.presence ∧
    (s.passDataError).result = false ∧
    (s.passDataError).crcOk = false ∧
    (s.passDataError).serr = true ∧
    (s.passDataError).ld = 0 ∧
    (s.passDataError).ldf = false ∧
    (s.passDataError).rom = s.rom ∧
    (s.passDataError).pending = s.pending ∧
    (s.passDataError).pass = s.pass ∧
    (s.passDataError).resetPin = s.resetPin ∧
    (s.passDataError).line = s.line ∧
    (s.passDataError).inputs = s.inputs ∧
    (s.passDataError).responses = s.responses ∧
    (s.passDataError).readDraws = s.readDraws ∧
    (s.passDataError).params = s.params :=
  ⟨rfl, rfl, rfl, rfl, rfl, rfl, rfl, rfl, rfl, rfl, rfl, rfl, rfl, rfl, rfl, rfl, rfl, rfl, rfl, rfl, rfl⟩

/-- The fields after `clearSearch`. -/
@[simp] theorem State.clearSearch_fields (s : State) :
    (s.clearSearch).data = s.data ∧
    (s.clearSearch).filter = s.filter ∧
    (s.clearSearch).filterEn = s.filterEn ∧
    (s.clearSearch).crc = s.crc ∧
    (s.clearSearch).illcmd = s.illcmd ∧
    (s.clearSearch).overrun = s.overrun ∧
    (s.clearSearch).presence = s.presence ∧
    (s.clearSearch).result = s.result ∧
    (s.clearSearch).crcOk = s.crcOk ∧
    (s.clearSearch).serr = s.serr ∧
    (s.clearSearch).ld = 0 ∧
    (s.clearSearch).ldf = false ∧
    (s.clearSearch).rom = s.rom ∧
    (s.clearSearch).pending = s.pending ∧
    (s.clearSearch).pass = s.pass ∧
    (s.clearSearch).resetPin = s.resetPin ∧
    (s.clearSearch).line = s.line ∧
    (s.clearSearch).inputs = s.inputs ∧
    (s.clearSearch).responses = s.responses ∧
    (s.clearSearch).readDraws = s.readDraws ∧
    (s.clearSearch).params = s.params :=
  ⟨rfl, rfl, rfl, rfl, rfl, rfl, rfl, rfl, rfl, rfl, rfl, rfl, rfl, rfl, rfl, rfl, rfl, rfl, rfl, rfl, rfl⟩

/-- The fields after `passReset`. -/
@[simp] theorem State.passReset_fields (s : State) :
    (s.passReset).data = s.data ∧
    (s.passReset).filter = s.filter ∧
    (s.passReset).filterEn = s.filterEn ∧
    (s.passReset).crc = s.crc ∧
    (s.passReset).illcmd = s.illcmd ∧
    (s.passReset).overrun = s.overrun ∧
    (s.passReset).presence = (busReset s.params s.line).1 ∧
    (s.passReset).result = s.result ∧
    (s.passReset).crcOk = s.crcOk ∧
    (s.passReset).serr = s.serr ∧
    (s.passReset).ld = s.ld ∧
    (s.passReset).ldf = s.ldf ∧
    (s.passReset).rom = s.rom ∧
    (s.passReset).pending = s.pending ∧
    (s.passReset).pass = s.pass ∧
    (s.passReset).resetPin = s.resetPin ∧
    (s.passReset).line = (busReset s.params s.line).2 ∧
    (s.passReset).inputs = s.inputs ∧
    (s.passReset).responses = s.responses ∧
    (s.passReset).readDraws = s.readDraws ∧
    (s.passReset).params = s.params :=
  ⟨rfl, rfl, rfl, rfl, rfl, rfl, rfl, rfl, rfl, rfl, rfl, rfl, rfl, rfl, rfl, rfl, rfl, rfl, rfl, rfl, rfl⟩

/-- The fields after `passStart`. -/
@[simp] theorem State.passStart_fields (s : State) :
    (s.passStart).data = s.data ∧
    (s.passStart).filter = s.filter ∧
    (s.passStart).filterEn = s.filterEn ∧
    (s.passStart).crc = s.crc ∧
    (s.passStart).illcmd = s.illcmd ∧
    (s.passStart).overrun = s.overrun ∧
    (s.passStart).presence = s.presence ∧
    (s.passStart).result = s.result ∧
    (s.passStart).crcOk = s.crcOk ∧
    (s.passStart).serr = s.serr ∧
    (s.passStart).ld = s.ld ∧
    (s.passStart).ldf = s.ldf ∧
    (s.passStart).rom = s.rom ∧
    (s.passStart).pending = s.pending ∧
    (s.passStart).pass = { s.pass with lastZero := 0 } ∧
    (s.passStart).resetPin = s.resetPin ∧
    (s.passStart).line = lineWriteByte s.params s.params.searchRomCode s.line ∧
    (s.passStart).inputs = s.inputs ∧
    (s.passStart).responses = s.responses ∧
    (s.passStart).readDraws = s.readDraws ∧
    (s.passStart).params = s.params :=
  ⟨rfl, rfl, rfl, rfl, rfl, rfl, rfl, rfl, rfl, rfl, rfl, rfl, rfl, rfl, rfl, rfl, rfl, rfl, rfl, rfl, rfl⟩

/-- The fields after `readPair`. -/
@[simp] theorem State.readPair_fields (s : State) (n : Nat) :
    (s.readPair n).data = s.data ∧
    (s.readPair n).filter = s.filter ∧
    (s.readPair n).filterEn = s.filterEn ∧
    (s.readPair n).crc = s.crc ∧
    (s.readPair n).illcmd = s.illcmd ∧
    (s.readPair n).overrun = s.overrun ∧
    (s.readPair n).presence = s.presence ∧
    (s.readPair n).result = s.result ∧
    (s.readPair n).crcOk = s.crcOk ∧
    (s.readPair n).serr = s.serr ∧
    (s.readPair n).ld = s.ld ∧
    (s.readPair n).ldf = s.ldf ∧
    (s.readPair n).rom = s.rom ∧
    (s.readPair n).pending = s.pending ∧
    (s.readPair n).pass = { s.pass with idBitNumber := n, idBit := (lineReadBit s.params s.line).1, cmpIdBit := (lineReadBit s.params (lineReadBit s.params s.line).2).1 } ∧
    (s.readPair n).resetPin = s.resetPin ∧
    (s.readPair n).line = (lineReadBit s.params (lineReadBit s.params s.line).2).2 ∧
    (s.readPair n).inputs = s.inputs ∧
    (s.readPair n).responses = s.responses ∧
    (s.readPair n).readDraws = s.readDraws ∧
    (s.readPair n).params = s.params :=
  ⟨rfl, rfl, rfl, rfl, rfl, rfl, rfl, rfl, rfl, rfl, rfl, rfl, rfl, rfl, rfl, rfl, rfl, rfl, rfl, rfl, rfl⟩

/-- The fields after `passComplete`. -/
@[simp] theorem State.passComplete_fields (s : State) :
    (s.passComplete).data = s.data ∧
    (s.passComplete).filter = s.filter ∧
    (s.passComplete).filterEn = s.filterEn ∧
    (s.passComplete).crc = s.crc ∧
    (s.passComplete).illcmd = s.illcmd ∧
    (s.passComplete).overrun = s.overrun ∧
    (s.passComplete).presence = s.presence ∧
    (s.passComplete).result = true ∧
    (s.passComplete).crcOk = romValid s.rom ∧
    (s.passComplete).serr = false ∧
    (s.passComplete).ld = s.pass.lastZero ∧
    (s.passComplete).ldf = (s.pass.lastZero == 0) ∧
    (s.passComplete).rom = s.rom ∧
    (s.passComplete).pending = s.pending ∧
    (s.passComplete).pass = s.pass ∧
    (s.passComplete).resetPin = s.resetPin ∧
    (s.passComplete).line = s.line ∧
    (s.passComplete).inputs = s.inputs ∧
    (s.passComplete).responses = s.responses ∧
    (s.passComplete).readDraws = s.readDraws ∧
    (s.passComplete).params = s.params :=
  ⟨rfl, rfl, rfl, rfl, rfl, rfl, rfl, rfl, rfl, rfl, rfl, rfl, rfl, rfl, rfl, rfl, rfl, rfl, rfl, rfl, rfl⟩

/-- The fields after `blockReset`. -/
@[simp] theorem State.blockReset_fields (s : State) :
    (s.blockReset).data = 0x00 ∧
    (s.blockReset).filter = 0x00 ∧
    (s.blockReset).filterEn = false ∧
    (s.blockReset).crc = 0x00 ∧
    (s.blockReset).illcmd = false ∧
    (s.blockReset).overrun = false ∧
    (s.blockReset).presence = false ∧
    (s.blockReset).result = false ∧
    (s.blockReset).crcOk = false ∧
    (s.blockReset).serr = false ∧
    (s.blockReset).ld = 0 ∧
    (s.blockReset).ldf = false ∧
    (s.blockReset).rom = Vector.replicate 8 0x00 ∧
    (s.blockReset).pending = none ∧
    (s.blockReset).pass = s.pass ∧
    (s.blockReset).resetPin = s.resetPin ∧
    (s.blockReset).line = s.line.blockReset s.busy ∧
    (s.blockReset).inputs = s.inputs ∧
    (s.blockReset).responses = s.responses ∧
    (s.blockReset).readDraws = s.readDraws ∧
    (s.blockReset).params = s.params :=
  ⟨rfl, rfl, rfl, rfl, rfl, rfl, rfl, rfl, rfl, rfl, rfl, rfl, rfl, rfl, rfl, rfl, rfl, rfl, rfl, rfl, rfl⟩

/-- The fields after `setInputs`. -/
@[simp] theorem State.setInputs_fields (s : State) (is : List Input) :
    (s.setInputs is).data = s.data ∧
    (s.setInputs is).filter = s.filter ∧
    (s.setInputs is).filterEn = s.filterEn ∧
    (s.setInputs is).crc = s.crc ∧
    (s.setInputs is).illcmd = s.illcmd ∧
    (s.setInputs is).overrun = s.overrun ∧
    (s.setInputs is).presence = s.presence ∧
    (s.setInputs is).result = s.result ∧
    (s.setInputs is).crcOk = s.crcOk ∧
    (s.setInputs is).serr = s.serr ∧
    (s.setInputs is).ld = s.ld ∧
    (s.setInputs is).ldf = s.ldf ∧
    (s.setInputs is).rom = s.rom ∧
    (s.setInputs is).pending = s.pending ∧
    (s.setInputs is).pass = s.pass ∧
    (s.setInputs is).resetPin = s.resetPin ∧
    (s.setInputs is).line = s.line ∧
    (s.setInputs is).inputs = is ∧
    (s.setInputs is).responses = s.responses ∧
    (s.setInputs is).readDraws = s.readDraws ∧
    (s.setInputs is).params = s.params :=
  ⟨rfl, rfl, rfl, rfl, rfl, rfl, rfl, rfl, rfl, rfl, rfl, rfl, rfl, rfl, rfl, rfl, rfl, rfl, rfl, rfl, rfl⟩

/-- The fields after `changeEnv`. -/
@[simp] theorem State.changeEnv_fields (s : State) (c : EnvChange) :
    (s.changeEnv c).data = s.data ∧
    (s.changeEnv c).filter = s.filter ∧
    (s.changeEnv c).filterEn = s.filterEn ∧
    (s.changeEnv c).crc = s.crc ∧
    (s.changeEnv c).illcmd = s.illcmd ∧
    (s.changeEnv c).overrun = s.overrun ∧
    (s.changeEnv c).presence = s.presence ∧
    (s.changeEnv c).result = s.result ∧
    (s.changeEnv c).crcOk = s.crcOk ∧
    (s.changeEnv c).serr = s.serr ∧
    (s.changeEnv c).ld = s.ld ∧
    (s.changeEnv c).ldf = s.ldf ∧
    (s.changeEnv c).rom = s.rom ∧
    (s.changeEnv c).pending = s.pending ∧
    (s.changeEnv c).pass = s.pass ∧
    (s.changeEnv c).resetPin = s.resetPin ∧
    (s.changeEnv c).line = { s.line with env := s.line.env.change c } ∧
    (s.changeEnv c).inputs = s.inputs ∧
    (s.changeEnv c).responses = s.responses ∧
    (s.changeEnv c).readDraws = s.readDraws ∧
    (s.changeEnv c).params = s.params :=
  ⟨rfl, rfl, rfl, rfl, rfl, rfl, rfl, rfl, rfl, rfl, rfl, rfl, rfl, rfl, rfl, rfl, rfl, rfl, rfl, rfl, rfl⟩

/-- The fields after `takeBranch`; `d` is the direction taken. -/
theorem State.takeBranch_fields (s : State) (n : Nat) (d : Bool)
    (hd : branchDirection n s.ld s.rom s.pass.idBit s.pass.cmpIdBit = d) :
    s.takeBranch n =
      { s with
        line := lineWriteBit s.params d s.line
        rom := setRomBit s.rom n d
        pass :=
          { s.pass with
            searchDirection := d
            lastZero := if s.pass.idBit == s.pass.cmpIdBit && !d then n else s.pass.lastZero } } := by
  subst hd; rfl

/-- Asserting the reset input resets the block. -/
@[simp] theorem State.setResetPin_true (s : State) :
    s.setResetPin true = { s.blockReset with resetPin := true } := rfl

/-- Releasing an asserted reset input resets the block. -/
theorem State.setResetPin_release {s : State} (h : s.resetPin = true) :
    s.setResetPin false = { s.blockReset with resetPin := false } := by
  simp [State.setResetPin, h]

/-- A reset input that stays released does nothing. -/
theorem State.setResetPin_stays {s : State} (h : s.resetPin = false) : s.setResetPin false = s := by
  simp [State.setResetPin, h]

/-- All the reset input can do: reset the block, or nothing where it stays released (R190). -/
theorem State.setResetPin_cases (s : State) (a : Bool) :
    ((a = true ∨ s.resetPin = true) ∧ s.setResetPin a = { s.blockReset with resetPin := a }) ∨
    (a = false ∧ s.resetPin = false ∧ s.setResetPin a = s) := by
  cases a <;> cases h : s.resetPin <;> simp [State.setResetPin, h]

/-- The line after `record`. -/
@[simp] theorem Line.record_fields (a : LineActivity) (l : Line) :
    (l.record a).driveLow = l.driveLow ∧ (l.record a).timebase = l.timebase ∧
    (l.record a).activity = a :: l.activity ∧ (l.record a).env = l.env ∧
    (l.record a).draws = l.draws ∧ (l.record a).drawCount = l.drawCount :=
  ⟨rfl, rfl, rfl, rfl, rfl, rfl⟩

/-- The line after `overhead`. -/
@[simp] theorem Line.overhead_fields (p : Params) (l : Line) :
    (l.overhead p).driveLow = l.driveLow ∧ (l.overhead p).timebase = l.timebase + p.timing.cmd ∧
    (l.overhead p).activity = l.activity ∧ (l.overhead p).env = l.env ∧
    (l.overhead p).draws = l.draws ∧ (l.overhead p).drawCount = l.drawCount :=
  ⟨rfl, rfl, rfl, rfl, rfl, rfl⟩

/-- The line after `blockReset`. -/
@[simp] theorem Line.blockReset_fields (b : Bool) (l : Line) :
    (l.blockReset b).driveLow = false ∧ (l.blockReset b).timebase = l.timebase ∧
    (l.blockReset b).activity = l.activity ∧
    (l.blockReset b).env = (if b then l.env.afterLostSession else l.env) ∧
    (l.blockReset b).draws = l.draws ∧ (l.blockReset b).drawCount = l.drawCount :=
  ⟨rfl, rfl, rfl, rfl, rfl, rfl⟩

end Sys2Proof.Machine
end

