-- ==== Sys2Proof/Laws/Bits.lean ====
section
/-! SUPPORT. Bits of a byte, positions of a ROM code, and the CRC-8 step bit by bit. -/

namespace Sys2Proof.Machine

/-- A bit of a byte read after a write (i, k below 8). -/
theorem getLsbD_setBit (v : Byte) {i k : Nat} (hi : i < 8) (hk : k < 8) (b : Bool) :
    (setBit v i b).getLsbD k = if k = i then b else v.getLsbD k := by
  cases b <;> by_cases e : k = i
  · subst e; simp [setBit, hk]
  · simp [setBit, e, hk]; omega
  · subst e; simp [setBit, hk]
  · simp [setBit, e, hk]; omega

/-- The byte of a position and its bit, inside the eight bytes. -/
theorem romIndex_lt {n : Nat} (h1 : 1 ≤ n) (h2 : n ≤ 64) : (n - 1) / 8 < 8 ∧ (n - 1) % 8 < 8 := by omega

/-- Position `8k + i + 1` is bit `i` of byte `k` (R10). -/
theorem romBit_byte (r : RomCode) (k : Fin 8) {i : Nat} (hi : i < 8) :
    romBit r (8 * k.val + i + 1) = r[k].getLsbD i := by
  have h1 : (8 * k.val + i) / 8 = k.val := by omega
  have h2 : (8 * k.val + i) % 8 = i := by omega
  simp [romBit, h1, h2]

/-- Read after write of a ROM position (R10). -/
theorem romBit_setRomBit (r : RomCode) {n m : Nat} (hn : 1 ≤ n ∧ n ≤ 64) (hm : 1 ≤ m ∧ m ≤ 64) (b : Bool) :
    romBit (setRomBit r n b) m = if m = n then b else romBit r m := by
  obtain ⟨hn1, hn2⟩ := romIndex_lt hn.1 hn.2
  obtain ⟨hm1, hm2⟩ := romIndex_lt hm.1 hm.2
  unfold romBit setRomBit
  by_cases hq : (m - 1) / 8 = (n - 1) / 8
  · have hset : (r.setIfInBounds ((n - 1) / 8)
        (setBit (r[(n - 1) / 8]?.getD 0) ((n - 1) % 8) b))[(m - 1) / 8]?.getD 0 =
        setBit (r[(n - 1) / 8]?.getD 0) ((n - 1) % 8) b := by
      rw [hq]; simp [hn1]
    rw [hset, getLsbD_setBit _ hn2 hm2, hq]
    have : ((m - 1) % 8 = (n - 1) % 8) ↔ m = n := by omega
    simp [this]
  · have hne : m ≠ n := by rintro rfl; exact hq rfl
    have hget : (r.setIfInBounds ((n - 1) / 8)
        (setBit (r[(n - 1) / 8]?.getD 0) ((n - 1) % 8) b))[(m - 1) / 8]? = r[(m - 1) / 8]? := by
      simp [Ne.symm hq]
    rw [hget, if_neg hne]

/-- A ROM code is its 64 positions (R10). -/
theorem romCode_ext {r t : RomCode} (h : ∀ n, 1 ≤ n → n ≤ 64 → romBit r n = romBit t n) : r = t := by
  apply Vector.ext
  intro k hk
  apply BitVec.eq_of_getLsbD_eq
  intro i hi
  have := h (8 * k + i + 1) (by omega) (by omega)
  rwa [romBit_byte r ⟨k, hk⟩ hi, romBit_byte t ⟨k, hk⟩ hi] at this

/-! ### CRC-8 -/

/-- One bit of the CRC is linear in accumulator and bit (R145, R150). -/
theorem crcBit_xor (c d : Byte) (a b : Bool) : crcBit (c ^^^ d) (a != b) = crcBit c a ^^^ crcBit d b := by
  have key : ∀ x : Byte, ∀ e : Bool, crcBit x e = (x >>> 1) ^^^ (if x.getLsbD 0 != e then 0x8C else 0) := by
    intro x e; unfold crcBit; split <;> simp
  have feed : ∀ x y : Bool, (if (x != y) = true then (0x8C : Byte) else 0) =
      (if x = true then 0x8C else 0) ^^^ (if y = true then 0x8C else 0) := by decide
  have mix : ((c ^^^ d).getLsbD 0 != (a != b)) = ((c.getLsbD 0 != a) != (d.getLsbD 0 != b)) := by
    rw [BitVec.getLsbD_xor]
    cases c.getLsbD 0 <;> cases d.getLsbD 0 <;> cases a <;> cases b <;> rfl
  rw [key, key, key, mix, feed, BitVec.ushiftRight_xor_distrib]
  ac_rfl

/-- One byte of the CRC is linear in accumulator and byte together (R150). -/
theorem crc8Step_xor (c d a b : Byte) : crc8Step (c ^^^ d) (a ^^^ b) = crc8Step c a ^^^ crc8Step d b := by
  simp only [crc8Step, bitIndices, List.foldl, BitVec.getLsbD_xor, ← crcBit_xor]

end Sys2Proof.Machine
end

