-- ==== Sys2Proof/Laws/Ops.lean ====
section
/-! SUPPORT. What the environment's transactions and the line primitives do, each said once: every primitive is the
environment's transaction, the line released, the waveform's time passed and one record (40_line_driver.md R88 to R92,
R107). -/

namespace Sys2Proof.Machine

/-! ### The environment's transactions touch only the environment and its draws -/

/-- The parts of a line that the block drives agree. -/
structure SamePort (l m : Line) : Prop where
  driveLow : m.driveLow = l.driveLow
  timebase : m.timebase = l.timebase
  activity : m.activity = l.activity

theorem SamePort.refl (l : Line) : SamePort l l := ⟨rfl, rfl, rfl⟩

theorem nextDraw_samePort (l : Line) : SamePort l (nextDraw l).2 := by
  unfold nextDraw
  split <;> exact ⟨rfl, rfl, rfl⟩

theorem nextDraw_env (l : Line) : (nextDraw l).2.env = l.env := by
  unfold nextDraw
  split <;> rfl

theorem freeLevel_samePort (ds : List Device) (l : Line) : SamePort l (freeLevel ds l).2 := by
  unfold freeLevel
  split
  · exact nextDraw_samePort l
  · exact SamePort.refl l

theorem envReset_samePort (l : Line) : SamePort l (envReset l).2 := by
  unfold envReset
  split
  · exact nextDraw_samePort l
  · exact ⟨rfl, rfl, rfl⟩
  · exact nextDraw_samePort l
  · exact SamePort.refl l

theorem envWrite_samePort (p : Params) (b : Bool) (l : Line) : SamePort l (envWrite p b l) := by
  unfold envWrite
  split <;> exact ⟨rfl, rfl, rfl⟩

theorem envRead_samePort (l : Line) : SamePort l (envRead l).2 := by
  unfold envRead
  split
  · exact nextDraw_samePort l
  · rename_i ds _
    have h := freeLevel_samePort ds l
    exact ⟨h.driveLow, h.timebase, h.activity⟩
  all_goals exact ⟨rfl, rfl, rfl⟩

/-! ### Waveforms -/

/-- The line as a primitive leaves it: released, with its time passed and its record made. -/
def Line.made (l : Line) (t : Nat) (a : LineActivity) : Line :=
  { l with driveLow := false, timebase := l.timebase + t, activity := a :: l.activity }

@[simp] theorem Line.made_fields (l : Line) (t : Nat) (a : LineActivity) :
    (l.made t a).driveLow = false ∧ (l.made t a).timebase = l.timebase + t ∧
    (l.made t a).activity = a :: l.activity ∧ (l.made t a).env = l.env ∧
    (l.made t a).draws = l.draws ∧ (l.made t a).drawCount = l.drawCount :=
  ⟨rfl, rfl, rfl, rfl, rfl, rfl⟩

/-- A reset primitive in one line (R88). -/
theorem busReset_eq (p : Params) (l : Line) :
    busReset p l =
      ((envReset l).1, (envReset l).2.made (waveTime (resetWave p.timing)) (.reset (envReset l).1)) := by
  simp [busReset, runWave, resetWave, lineStep, Line.record, Line.made, waveTime, Nat.add_assoc]

/-- A write slot in one line (R89, R90). -/
theorem lineWriteBit_eq (p : Params) (b : Bool) (l : Line) :
    lineWriteBit p b l = (envWrite p b l).made (waveTime (writeWave p.timing b)) (.writeSlot b) := by
  cases b <;>
    simp [lineWriteBit, runWave, writeWave, lineStep, Line.record, Line.made, waveTime, Nat.add_assoc]

/-- A read slot in one line: the master has released the line when it samples (R91). -/
theorem lineReadBit_eq (p : Params) (l : Line) :
    lineReadBit p l =
      ((envRead l).1, (envRead l).2.made (waveTime (readWave p.timing)) (.readSlot (envRead l).1)) := by
  simp [lineReadBit, runWave, readWave, lineStep, Line.record, Line.made, waveTime, Nat.add_assoc]

/-- With legal timing a reset takes `T_RSTL + T_RSTH` (R107). -/
theorem waveTime_resetWave {t : Timing} (h : t.wf = true) : waveTime (resetWave t) = t.rstl + t.rsth := by
  simp [Timing.wf] at h
  simp [resetWave, waveTime]
  omega

/-- With legal timing a write slot takes `T_SLOT + T_REC` (R107). -/
theorem waveTime_writeWave {t : Timing} (h : t.wf = true) (b : Bool) :
    waveTime (writeWave t b) = t.slot + t.recovery := by
  simp [Timing.wf] at h
  cases b <;> simp [writeWave, waveTime] <;> omega

/-- With legal timing a read slot takes `T_SLOT + T_REC` (R107). -/
theorem waveTime_readWave {t : Timing} (h : t.wf = true) : waveTime (readWave t) = t.slot + t.recovery := by
  simp [Timing.wf] at h
  simp [readWave, waveTime]
  omega

/-! ### What a line has been through -/

/-- `m` is `l` after the primitives `acts` (newest first): the line is released unless nothing was made, and with legal
timing their line time has passed (R92, R107). -/
structure Made (p : Params) (acts : List LineActivity) (l m : Line) : Prop where
  activity : m.activity = acts ++ l.activity
  time : p.timing.wf = true → m.timebase = l.timebase + (acts.map (activityTime p.timing)).sum
  released : acts ≠ [] → m.driveLow = false
  kept : acts = [] → m.driveLow = l.driveLow

theorem Made.refl (p : Params) (l : Line) : Made p [] l l :=
  ⟨rfl, fun _ => by simp, fun h => absurd rfl h, fun _ => rfl⟩

theorem Made.trans {p : Params} {a b : List LineActivity} {l m n : Line} (h : Made p a l m)
    (k : Made p b m n) : Made p (b ++ a) l n where
  activity := by rw [k.activity, h.activity, List.append_assoc]
  time w := by rw [k.time w, h.time w]; simp; omega
  released hne := by
    by_cases hb : b = []
    · rw [k.kept hb]; exact h.released (by simpa [hb] using hne)
    · exact k.released hb
  kept he := by
    have hb := List.append_eq_nil_iff.mp he
    rw [k.kept hb.1, h.kept hb.2]

theorem busReset_made (p : Params) (l : Line) :
    Made p [.reset (busReset p l).1] l (busReset p l).2 := by
  have h := envReset_samePort l
  rw [busReset_eq]
  exact ⟨by simp [h.activity], fun w => by simp [h.timebase, waveTime_resetWave w, activityTime],
    fun _ => rfl, fun he => by simp at he⟩

theorem lineWriteBit_made (p : Params) (b : Bool) (l : Line) :
    Made p [.writeSlot b] l (lineWriteBit p b l) := by
  have h := envWrite_samePort p b l
  rw [lineWriteBit_eq]
  exact ⟨by simp [h.activity], fun w => by simp [h.timebase, waveTime_writeWave w, activityTime],
    fun _ => rfl, fun he => by simp at he⟩

theorem lineReadBit_made (p : Params) (l : Line) :
    Made p [.readSlot (lineReadBit p l).1] l (lineReadBit p l).2 := by
  have h := envRead_samePort l
  rw [lineReadBit_eq]
  exact ⟨by simp [h.activity], fun w => by simp [h.timebase, waveTime_readWave w, activityTime],
    fun _ => rfl, fun he => by simp at he⟩

/-- A byte goes out as eight write slots, bit 0 first (R111). -/
theorem lineWriteByte_made (p : Params) (v : Byte) (l : Line) :
    Made p (byteSlots v).reverse l (lineWriteByte p v l) :=
  (((((((lineWriteBit_made p _ l).trans (lineWriteBit_made p _ _)).trans
    (lineWriteBit_made p _ _)).trans (lineWriteBit_made p _ _)).trans
    (lineWriteBit_made p _ _)).trans (lineWriteBit_made p _ _)).trans
    (lineWriteBit_made p _ _)).trans (lineWriteBit_made p _ _)

/-- A byte comes in as eight read slots, the first one bit 0 (R113). -/
theorem lineReadByte_made (p : Params) (l : Line) :
    Made p ((List.range 8).map (fun i => LineActivity.readSlot ((lineReadByte p l).1.getLsbD i))).reverse l
      (lineReadByte p l).2 := by
  have h := lineReadBit_made p
  have key : ∀ b0 b1 b2 b3 b4 b5 b6 b7 : Bool,
      (List.range 8).map (fun i => LineActivity.readSlot ((setBit (setBit (setBit (setBit (setBit (setBit
        (setBit (setBit 0x00 0 b0) 1 b1) 2 b2) 3 b3) 4 b4) 5 b5) 6 b6) 7 b7).getLsbD i)) =
      [.readSlot b0, .readSlot b1, .readSlot b2, .readSlot b3, .readSlot b4, .readSlot b5, .readSlot b6,
        .readSlot b7] := by decide
  simp only [lineReadByte, bitIndices, List.foldl, readByteStep]
  rw [key]
  exact (((((((h l).trans (h _)).trans (h _)).trans (h _)).trans (h _)).trans (h _)).trans (h _)).trans (h _)

/-- A primitive's record, counted: a reset is one reset, and the slots are the rest. -/
theorem countP_positions (xs : List Position) :
    (xs.flatMap Position.activity).countP LineActivity.isReset = 0 ∧
    (xs.flatMap Position.activity).countP (fun a => !a.isReset) = 3 * xs.length := by
  induction xs with
  | nil => exact ⟨rfl, rfl⟩
  | cons x xs ih =>
    have h0 : x.activity.countP LineActivity.isReset = 0 := rfl
    have h1 : x.activity.countP (fun a => !a.isReset) = 3 := rfl
    rw [List.flatMap_cons, List.countP_append, List.countP_append, ih.1, ih.2, h0, h1, List.length_cons]
    exact ⟨rfl, by omega⟩

theorem Line.overhead_driveLow (p : Params) (l : Line) : (l.overhead p).driveLow = l.driveLow := rfl

end Sys2Proof.Machine
end

