-- ==== Sys2Proof/Laws/Search.lean ====
section
/-! SUPPORT. What a search pass does, said once by induction over its positions: which registers it leaves alone, and its
whole effect in terms of the bits read and the directions taken (42_rom_search.md R123 to R135). -/

namespace Sys2Proof.Machine

/-- What a search pass never touches (R40). -/
structure PassFrame (s t : State) : Prop where
  data : t.data = s.data
  filter : t.filter = s.filter
  filterEn : t.filterEn = s.filterEn
  crc : t.crc = s.crc
  illcmd : t.illcmd = s.illcmd
  overrun : t.overrun = s.overrun
  pending : t.pending = s.pending
  outside : SameOutside s t

theorem SameOutside.refl (s : State) : SameOutside s s := ⟨rfl, rfl, rfl, rfl, rfl⟩

theorem PassFrame.refl (s : State) : PassFrame s s := ⟨rfl, rfl, rfl, rfl, rfl, rfl, rfl, SameOutside.refl s⟩

theorem PassFrame.trans {s t u : State} (h : PassFrame s t) (k : PassFrame t u) : PassFrame s u where
  data := k.data.trans h.data
  filter := k.filter.trans h.filter
  filterEn := k.filterEn.trans h.filterEn
  crc := k.crc.trans h.crc
  illcmd := k.illcmd.trans h.illcmd
  overrun := k.overrun.trans h.overrun
  pending := k.pending.trans h.pending
  outside :=
    ⟨k.outside.resetPin.trans h.outside.resetPin, k.outside.inputs.trans h.outside.inputs,
      k.outside.responses.trans h.outside.responses, k.outside.readDraws.trans h.outside.readDraws,
      k.outside.params.trans h.outside.params⟩

theorem searchFrom_frame (k n : Nat) (s : State) : PassFrame s (searchFrom k n s) := by
  induction k generalizing n s with
  | zero => exact ⟨rfl, rfl, rfl, rfl, rfl, rfl, rfl, rfl, rfl, rfl, rfl, rfl⟩
  | succ k ih =>
    simp only [searchFrom]
    split
    · exact ⟨rfl, rfl, rfl, rfl, rfl, rfl, rfl, rfl, rfl, rfl, rfl, rfl⟩
    · have h : PassFrame s ((s.readPair n).takeBranch n) :=
        ⟨rfl, rfl, rfl, rfl, rfl, rfl, rfl, rfl, rfl, rfl, rfl, rfl⟩
      exact h.trans (ih (n + 1) _)

theorem searchPass_frame (s : State) : PassFrame s (searchPass s) := by
  unfold searchPass
  split
  · exact ⟨rfl, rfl, rfl, rfl, rfl, rfl, rfl, rfl, rfl, rfl, rfl, rfl⟩
  · simp only
    split
    · have h : PassFrame s s.passReset.passStart :=
        ⟨rfl, rfl, rfl, rfl, rfl, rfl, rfl, rfl, rfl, rfl, rfl, rfl⟩
      exact h.trans (searchFrom_frame _ _ _)
    · exact ⟨rfl, rfl, rfl, rfl, rfl, rfl, rfl, rfl, rfl, rfl, rfl, rfl⟩

/-! ### Positions -/

/-- The directions of the positions from `n` on are those of R126. -/
def DirectionsFrom (n ld : Nat) (rom : RomCode) (xs : List Position) : Prop :=
  ∀ j : Nat, ∀ x : Position, xs[j]? = some x →
    (x.idBit && x.cmpIdBit) = false ∧ x.dir = branchDirection (n + j) ld rom x.idBit x.cmpIdBit

/-- `last_zero` after the positions from `n` on, from `z` before them (R130). -/
def lastZeroFrom : (n z : Nat) → List Position → Nat
  | _, z, [] => z
  | n, z, x :: xs => lastZeroFrom (n + 1) (if x.zeroTaken then n else z) xs

/-- The ROM code `t` after the positions from `n` on, from `s` before them. -/
def RomFrom (n : Nat) (s t : RomCode) (xs : List Position) : Prop :=
  (∀ j : Nat, ∀ x : Position, xs[j]? = some x → romBit t (n + j) = x.dir) ∧
  (∀ m, 1 ≤ m → m ≤ 64 → m < n ∨ n + xs.length ≤ m → romBit t m = romBit s m)

/-- The whole effect of the loop from position `n` with `k` positions left. -/
def LoopEffect (k n : Nat) (s t : State) : Prop :=
  ∃ xs : List Position,
    DirectionsFrom n s.ld s.rom xs ∧ RomFrom n s.rom t.rom xs ∧ t.presence = s.presence ∧
    ((xs.length < k ∧
        Made s.params (xs.flatMap Position.activity ++ [LineActivity.readSlot true, LineActivity.readSlot true]).reverse s.line t.line ∧
        t.ld = 0 ∧ t.ldf = false ∧ t.serr = true ∧ t.crcOk = false ∧ t.result = false) ∨
     (xs.length = k ∧
        Made s.params (xs.flatMap Position.activity).reverse s.line t.line ∧
        t.ld = lastZeroFrom n s.pass.lastZero xs ∧ t.ldf = (t.ld == 0) ∧ t.serr = false ∧
        t.crcOk = romValid t.rom ∧ t.result = true))

/-- The state at the next position, in its fields. -/
theorem takeBranch_readPair (s : State) (n : Nat) :
    let a := lineReadBit s.params s.line
    let b := lineReadBit s.params a.2
    let d := branchDirection n s.ld s.rom a.1 b.1
    (s.readPair n).takeBranch n =
      { s with
        line := lineWriteBit s.params d b.2
        rom := setRomBit s.rom n d
        pass :=
          { idBitNumber := n
            lastZero := if a.1 == b.1 && !d then n else s.pass.lastZero
            idBit := a.1
            cmpIdBit := b.1
            searchDirection := d } } := rfl

theorem readPair_made (s : State) (n : Nat) :
    Made s.params [.readSlot (s.readPair n).pass.cmpIdBit, .readSlot (s.readPair n).pass.idBit] s.line
      (s.readPair n).line :=
  (lineReadBit_made s.params s.line).trans (lineReadBit_made s.params _)

theorem takeBranch_made (s : State) (n : Nat) :
    Made s.params [.writeSlot (s.takeBranch n).pass.searchDirection] s.line (s.takeBranch n).line :=
  lineWriteBit_made s.params _ s.line

/-- The replayed position is read before it is overwritten: writing position `n` leaves the later directions alone. -/
theorem branchDirection_setRomBit {n m ld : Nat} {rom : RomCode} {a b d : Bool} (hn : 1 ≤ n ∧ n ≤ 64)
    (hm : 1 ≤ m ∧ m ≤ 64) (hne : m ≠ n) :
    branchDirection m ld (setRomBit rom n d) a b = branchDirection m ld rom a b := by
  simp [branchDirection, romBit_setRomBit rom hn hm, hne]

/-- The effect of the loop, by induction over the positions left. -/
theorem searchFrom_effect (k n : Nat) (s : State) (hn : 1 ≤ n) (hk : n + k = 65) :
    LoopEffect k n s (searchFrom k n s) := by
  induction k generalizing n s with
  | zero =>
    refine ⟨[], ?_, ?_, rfl, Or.inr ⟨rfl, ?_, rfl, rfl, rfl, rfl, rfl⟩⟩
    · intro j x hx; simp at hx
    · exact ⟨fun j x hx => by simp at hx, fun _ _ _ _ => rfl⟩
    · exact Made.refl s.params s.line
  | succ k ih =>
    have hpair := readPair_made s n
    rw [searchFrom]
    split
    · rename_i hb
      simp only [Bool.and_eq_true] at hb
      rw [hb.1, hb.2] at hpair
      refine ⟨[], ?_, ?_, rfl, Or.inl ⟨by simp, ?_, rfl, rfl, rfl, rfl, rfl⟩⟩
      · intro j x hx; simp at hx
      · exact ⟨fun j x hx => by simp at hx, fun _ _ _ _ => rfl⟩
      · exact hpair
    · rename_i hb
      have hb' : ((s.readPair n).pass.idBit && (s.readPair n).pass.cmpIdBit) = false := by simpa using hb
      obtain ⟨xs, hdir, hrom, hpres, hcase⟩ := ih (n + 1) ((s.readPair n).takeBranch n) (by omega) (by omega)
      have hmade := hpair.trans (takeBranch_made (s.readPair n) n)
      generalize hx0 : Position.mk (s.readPair n).pass.idBit (s.readPair n).pass.cmpIdBit
        ((s.readPair n).takeBranch n).pass.searchDirection = x0
      have hd0 : x0.dir = branchDirection n s.ld s.rom x0.idBit x0.cmpIdBit := by subst hx0; rfl
      have hrb : ∀ m, 1 ≤ m → m ≤ 64 →
          romBit ((s.readPair n).takeBranch n).rom m = if m = n then x0.dir else romBit s.rom m := by
        intro m h1 h2
        subst hx0
        exact romBit_setRomBit s.rom ⟨hn, by omega⟩ ⟨h1, h2⟩ _
      have hz : ((s.readPair n).takeBranch n).pass.lastZero =
          if x0.zeroTaken then n else s.pass.lastZero := by
        subst hx0
        simp only [Position.zeroTaken]
        show (if ((s.readPair n).pass.idBit == (s.readPair n).pass.cmpIdBit &&
          !((s.readPair n).takeBranch n).pass.searchDirection) = true then n else s.pass.lastZero) = _
        revert hb'
        cases (s.readPair n).pass.idBit <;> cases (s.readPair n).pass.cmpIdBit <;> simp
      have hlen : xs.length ≤ k := by
        rcases hcase with ⟨h, _⟩ | ⟨h, _⟩ <;> omega
      refine ⟨x0 :: xs, ?_, ⟨?_, ?_⟩, hpres, ?_⟩
      · intro j x hx
        cases j with
        | zero =>
          simp only [List.getElem?_cons_zero, Option.some.injEq] at hx
          subst hx
          exact ⟨by subst hx0; exact hb', hd0⟩
        | succ j =>
          simp only [List.getElem?_cons_succ] at hx
          have hj : j < xs.length := (List.getElem?_eq_some_iff.mp hx).1
          obtain ⟨h1, h2⟩ := hdir j x hx
          refine ⟨h1, ?_⟩
          rw [h2, show n + 1 + j = n + (j + 1) by omega]
          exact branchDirection_setRomBit ⟨hn, by omega⟩ ⟨by omega, by omega⟩ (by omega)
      · intro j x hx
        cases j with
        | zero =>
          simp only [List.getElem?_cons_zero, Option.some.injEq] at hx
          subst hx
          rw [hrom.2 (n + 0) (by omega) (by omega) (Or.inl (by omega)), hrb _ (by omega) (by omega)]
          simp
        | succ j =>
          simp only [List.getElem?_cons_succ] at hx
          rw [show n + (j + 1) = n + 1 + j by omega]
          exact hrom.1 j x hx
      · intro m h1 h2 h3
        simp only [List.length_cons] at h3
        rw [hrom.2 m h1 h2 (by omega), hrb m h1 h2, if_neg (by omega)]
      · have hact : [LineActivity.writeSlot ((s.readPair n).takeBranch n).pass.searchDirection] ++
            [.readSlot (s.readPair n).pass.cmpIdBit, .readSlot (s.readPair n).pass.idBit] =
            x0.activity.reverse := by subst hx0; rfl
        rw [hact] at hmade
        rcases hcase with ⟨h1, h2, h3⟩ | ⟨h1, h2, h3, h4⟩
        · refine Or.inl ⟨by simpa using h1, ?_, h3⟩
          have := hmade.trans h2
          simpa [List.reverse_append] using this
        · refine Or.inr ⟨by simpa using h1, ?_, ?_, h4⟩
          · have := hmade.trans h2
            simpa [List.reverse_append] using this
          · rw [h3, lastZeroFrom, hz]

/-- The highest position recorded, as a property (R130). -/
theorem lastZeroFrom_spec (n z : Nat) (xs : List Position) (hz : z < n) :
    (lastZeroFrom n z xs = z ∨ ∃ j x, xs[j]? = some x ∧ x.zeroTaken = true ∧ lastZeroFrom n z xs = n + j) ∧
    (∀ j x, xs[j]? = some x → x.zeroTaken = true → n + j ≤ lastZeroFrom n z xs) ∧
    z ≤ lastZeroFrom n z xs ∧ lastZeroFrom n z xs < n + xs.length := by
  induction xs generalizing n z with
  | nil => simp [lastZeroFrom, hz]
  | cons y ys ih =>
    simp only [lastZeroFrom]
    by_cases hy : y.zeroTaken = true
    · obtain ⟨h1, h2, h3, h4⟩ := ih (n + 1) n (by omega)
      simp only [hy, if_true, List.length_cons]
      refine ⟨Or.inr ?_, ?_, by omega, by omega⟩
      · rcases h1 with h1 | ⟨j, x, hj, hx, he⟩
        · exact ⟨0, y, by simp, hy, h1⟩
        · exact ⟨j + 1, x, by simpa using hj, hx, by omega⟩
      · intro j x hj hx
        cases j with
        | zero => omega
        | succ j =>
          have := h2 j x (by simpa using hj) hx
          omega
    · obtain ⟨h1, h2, h3, h4⟩ := ih (n + 1) z (by omega)
      simp only [hy, if_false, Bool.false_eq_true, List.length_cons]
      refine ⟨?_, ?_, by omega, by omega⟩
      · rcases h1 with h1 | ⟨j, x, hj, hx, he⟩
        · exact Or.inl h1
        · exact Or.inr ⟨j + 1, x, by simpa using hj, hx, by omega⟩
      · intro j x hj hx
        cases j with
        | zero =>
          simp only [List.getElem?_cons_zero, Option.some.injEq] at hj
          subst hj
          exact absurd hx hy
        | succ j =>
          have := h2 j x (by simpa using hj) hx
          omega

/-! ### The whole pass -/

/-- Step 1 exit. -/
theorem searchPass_exhausted {s : State} (hl : s.ldf = true) : searchPass s = s.passExhausted := by
  simp [searchPass, hl]

/-- Step 2 exit. -/
theorem searchPass_absent {s : State} (hl : s.ldf = false) (hp : (busReset s.params s.line).1 = false) :
    searchPass s = s.passReset.passNoPresence := by
  simp [searchPass, hl, hp]

/-- A pass that finds presence runs the loop from position 1. -/
theorem searchPass_present {s : State} (hl : s.ldf = false) (hp : (busReset s.params s.line).1 = true) :
    searchPass s = searchFrom romBits 1 s.passReset.passStart := by
  simp [searchPass, hl, hp]

/-- The three ways a pass goes: exhausted, nobody present, or the loop from position 1 after the reset and the search
command byte (R123). -/
theorem searchPass_cases (s : State) :
    (s.ldf = true ∧ searchPass s = s.passExhausted) ∨
    (s.ldf = false ∧ (busReset s.params s.line).1 = false ∧ searchPass s = s.passReset.passNoPresence) ∨
    (s.ldf = false ∧ (busReset s.params s.line).1 = true ∧
      searchPass s = searchFrom romBits 1 s.passReset.passStart) := by
  cases hl : s.ldf
  · cases hp : (busReset s.params s.line).1
    · exact Or.inr (Or.inl ⟨rfl, rfl, searchPass_absent hl hp⟩)
    · exact Or.inr (Or.inr ⟨rfl, rfl, searchPass_present hl hp⟩)
  · exact Or.inl ⟨rfl, searchPass_exhausted hl⟩

/-- The line before position 1: one reset and the search command byte. -/
theorem passStart_made (s : State) (hp : (busReset s.params s.line).1 = true) :
    Made s.params (.reset true :: byteSlots s.params.searchRomCode).reverse s.line
      s.passReset.passStart.line := by
  have h := (busReset_made s.params s.line).trans
    (lineWriteByte_made s.params s.params.searchRomCode (busReset s.params s.line).2)
  rw [hp] at h
  simpa using h

/-- The effect of a pass that finds presence, from position 1 on. -/
theorem searchPass_effect (s : State) (hl : s.ldf = false) (hp : (busReset s.params s.line).1 = true) :
    LoopEffect romBits 1 s.passReset.passStart (searchPass s) := by
  rcases searchPass_cases s with ⟨h, _⟩ | ⟨_, h, _⟩ | ⟨_, _, h⟩
  · rw [hl] at h; cases h
  · rw [hp] at h; cases h
  · rw [h]; exact searchFrom_effect _ _ _ (by omega) rfl

/-- A pass makes at most one reset and 200 slots, whatever its outcome (R144, R206). -/
theorem searchPass_made (s : State) :
    ∃ acts, Made s.params acts s.line (searchPass s).line ∧
      acts.countP LineActivity.isReset ≤ 1 ∧ acts.countP (fun a => !a.isReset) ≤ 200 := by
  have hr : LineActivity.isReset (.reset true) = true := rfl
  have hb : ∀ v, (byteSlots v).countP LineActivity.isReset = 0 ∧
      (byteSlots v).countP (fun a => !a.isReset) = 8 := fun v => ⟨rfl, rfl⟩
  have he : [LineActivity.readSlot true, .readSlot true].countP LineActivity.isReset = 0 ∧
      [LineActivity.readSlot true, .readSlot true].countP (fun a => !a.isReset) = 2 := ⟨rfl, rfl⟩
  rcases searchPass_cases s with ⟨h, h'⟩ | ⟨h, hp, h'⟩ | ⟨h, hp, h'⟩
  · rw [h']; exact ⟨[], Made.refl _ _, by simp, by simp⟩
  · rw [h']
    exact ⟨_, busReset_made s.params s.line, List.countP_le_length, Nat.le_trans List.countP_le_length (by simp)⟩
  · obtain ⟨xs, -, -, -, hc⟩ := searchPass_effect s h hp
    have h0 := passStart_made s hp
    obtain ⟨hx1, hx2⟩ := countP_positions xs
    rcases hc with ⟨hl, hm, -⟩ | ⟨hl, hm, -⟩ <;> refine ⟨_, h0.trans hm, ?_, ?_⟩ <;>
      simp only [List.countP_append, List.countP_reverse, List.countP_cons, hx1, hx2, (hb _).1, (hb _).2,
        he.1, he.2, hr] <;> simp [romBits] at hl ⊢ <;> omega

end Sys2Proof.Machine
end

