-- ==== Sys2Proof/Laws/Step.lean ====
section
/-! SUPPORT. What a command and a step can do, said once: every command answers a next state, what each leaves in that
state, and the cases of a step. -/

namespace Sys2Proof.Machine

/-- The state a command leaves before its completion. -/
def effect : Instr → State → State
  | .nop, s => s
  | .busReset, s => (s.setLine (busReset s.params s.line).2).setPresenceResult (busReset s.params s.line).1
  | .writeBit, s => s.setLine (lineWriteBit s.params s.operandBit s.line)
  | .readBit, s =>
    { s.setLine (lineReadBit s.params s.line).2 with data := zextBit (lineReadBit s.params s.line).1 }
  | .writeByte, s => s.setLine (lineWriteByte s.params s.operand s.line)
  | .readByte, s =>
    { s.setLine (lineReadByte s.params s.line).2 with data := (lineReadByte s.params s.line).1 }
  | .searchFirst, s => searchPass s.clearSearch
  | .searchNext, s => searchPass s
  | .crcClear, s => s.setCrc 0x00
  | .crcUpdate, s => s.setCrc (crc8Step s.crc s.operand)

/-- Every command answers the next state that its effect, completed, is (R46(c), R48). -/
theorem exec_eq (i : Instr) (s : State) : exec i s = .next (effect i s).complete := by
  cases i <;> rfl

theorem after_eq (i : Instr) (s : State) : after i s = (effect i s).complete := by
  simp [after, exec_eq]

/-- From a command's next state back to its effect. -/
theorem exec_next {i : Instr} {s t : State} (h : exec i s = .next t) : t = (effect i s).complete := by
  rw [exec_eq] at h
  exact (Host.Outcome.next.inj h).symm

/-- What a completed command leaves of its effect. -/
theorem effect_outside (i : Instr) (s : State) : SameOutside s (effect i s) := by
  cases i
  case searchFirst =>
    have h : PassFrame s s.clearSearch := ⟨rfl, rfl, rfl, rfl, rfl, rfl, rfl, rfl, rfl, rfl, rfl, rfl⟩
    exact (h.trans (searchPass_frame s.clearSearch)).outside
  case searchNext => exact (searchPass_frame s).outside
  all_goals exact ⟨rfl, rfl, rfl, rfl, rfl⟩

/-- A command makes at most one reset and 200 slots (R206), and its line time is theirs (R107). -/
theorem effect_made (i : Instr) (s : State) :
    ∃ acts, Made s.params acts s.line (effect i s).line ∧
      acts.countP LineActivity.isReset ≤ 1 ∧ acts.countP (fun a => !a.isReset) ≤ 200 := by
  have none : ∀ l : Line, ∃ acts, Made s.params acts l l ∧
      acts.countP LineActivity.isReset ≤ 1 ∧ acts.countP (fun a => !a.isReset) ≤ 200 :=
    fun l => ⟨[], Made.refl _ _, by simp, by simp⟩
  have one : ∀ (a : LineActivity) (l m : Line), Made s.params [a] l m → ∃ acts, Made s.params acts l m ∧
      acts.countP LineActivity.isReset ≤ 1 ∧ acts.countP (fun a => !a.isReset) ≤ 200 :=
    fun a l m h => ⟨[a], h, List.countP_le_length, Nat.le_trans List.countP_le_length (by simp)⟩
  cases i
  case nop => exact none s.line
  case crcClear => exact none s.line
  case crcUpdate => exact none s.line
  case busReset => exact one _ _ _ (busReset_made s.params s.line)
  case writeBit => exact one _ _ _ (lineWriteBit_made s.params s.operandBit s.line)
  case readBit => exact one _ _ _ (lineReadBit_made s.params s.line)
  case writeByte =>
    refine ⟨_, lineWriteByte_made s.params s.operand s.line, ?_, ?_⟩
    · show 0 ≤ 1; omega
    · show 8 ≤ 200; omega
  case readByte =>
    refine ⟨_, lineReadByte_made s.params s.line, ?_, ?_⟩
    · show 0 ≤ 1; omega
    · show 8 ≤ 200; omega
  case searchFirst => exact searchPass_made s.clearSearch
  case searchNext => exact searchPass_made s

/-- The inputs still to come are no part of what a search does. -/
theorem searchFrom_setInputs (is : List Input) (k n : Nat) (s : State) :
    searchFrom k n (s.setInputs is) = (searchFrom k n s).setInputs is := by
  induction k generalizing n s with
  | zero => rfl
  | succ k ih =>
    rw [searchFrom, searchFrom]
    have hr : (s.setInputs is).readPair n = (s.readPair n).setInputs is := rfl
    rw [hr]
    show (if ((s.readPair n).pass.idBit && (s.readPair n).pass.cmpIdBit) = true then _ else _) = _
    split
    · rfl
    · exact ih (n + 1) ((s.readPair n).takeBranch n)

/-- The inputs still to come are no part of what a command does. -/
theorem effect_setInputs (i : Instr) (s : State) (is : List Input) :
    effect i (s.setInputs is) = (effect i s).setInputs is := by
  have hp : ∀ u : State, searchPass (u.setInputs is) = (searchPass u).setInputs is := by
    intro u
    rcases searchPass_cases u with ⟨h, e⟩ | ⟨h, hp, e⟩ | ⟨h, hp, e⟩ <;> rw [e]
    · exact searchPass_exhausted (s := u.setInputs is) h
    · exact searchPass_absent (s := u.setInputs is) h hp
    · exact (searchPass_present (s := u.setInputs is) h hp).trans
        (searchFrom_setInputs is romBits 1 u.passReset.passStart)
  cases i
  case searchFirst => exact hp s.clearSearch
  case searchNext => exact hp s
  all_goals rfl

/-- The cases of a step that answers a next state: a command completes, or one input takes effect, or nothing is to be
done. -/
theorem step_cases {s t : State} (h : step s = .next t) :
    (∃ p u, s.pending = some p ∧ s.resetPin = false ∧ (u = s ∨ ∃ rest, s.inputs = .blockTurn :: rest ∧
      u = s.setInputs rest) ∧ t = (effect p.op u).complete) ∨
    (t = s ∧ (s.resetPin = true ∨ s.pending = none)) ∨
    (∃ rest, s.inputs = .blockTurn :: rest ∧ t = s.setInputs rest ∧
      (s.resetPin = true ∨ s.pending = none)) ∨
    (∃ addr r v rest, s.inputs = .write addr 1 v :: rest ∧ t = (s.hostWrite r v).setInputs rest) ∨
    (∃ addr r rest, s.inputs = .read addr 1 :: rest ∧ t = (s.hostRead r).setInputs rest) ∨
    (∃ rest, s.inputs = .poll :: rest ∧ s.pending = none ∧ t = (s.hostRead .status).setInputs rest) ∨
    (∃ a rest, s.inputs = .resetLine a :: rest ∧ t = (s.setResetPin a).setInputs rest) ∨
    (∃ c rest, s.inputs = .environment c :: rest ∧
      t = (s.changeEnv c).setInputs rest) := by
  have hturn : ∀ u : State, blockTurn u = .next t →
      (∃ p, u.pending = some p ∧ u.resetPin = false ∧ t = (effect p.op u).complete) ∨
      (t = u ∧ (u.resetPin = true ∨ u.pending = none)) := by
    intro u hu
    unfold blockTurn at hu
    split at hu
    · exact Or.inr ⟨(Host.Outcome.next.inj hu).symm, Or.inl ‹_›⟩
    · split at hu
      · rename_i hr _ p hp
        exact Or.inl ⟨p, hp, by simpa using hr, exec_next hu⟩
      · exact Or.inr ⟨(Host.Outcome.next.inj hu).symm, Or.inr ‹_›⟩
  have hacc : ∀ (addr width : Nat) (act : Reg → State), hostAccess s addr width act = .next t →
      width = 1 ∧ ∃ r, t = act r := by
    intro addr width act ha
    unfold hostAccess at ha
    split at ha
    · split at ha
      · exact ⟨‹_›, _, (Host.Outcome.next.inj ha).symm⟩
      · cases ha
    · cases ha
  unfold step stepTurn at h
  split at h
  · rcases hturn s h with ⟨p, hp, hr, ht⟩ | ⟨ht, hc⟩
    · exact Or.inl ⟨p, s, hp, hr, Or.inl rfl, ht⟩
    · exact Or.inr (Or.inl ⟨ht, hc⟩)
  · rename_i i rest hi
    cases i with
    | write addr width v =>
      obtain ⟨rfl, r, ht⟩ := hacc addr width (fun r => (s.hostWrite r v).setInputs rest) h
      exact Or.inr (Or.inr (Or.inr (Or.inl ⟨addr, r, v, rest, hi, ht⟩)))
    | read addr width =>
      obtain ⟨rfl, r, ht⟩ := hacc addr width (fun r => (s.hostRead r).setInputs rest) h
      exact Or.inr (Or.inr (Or.inr (Or.inr (Or.inl ⟨addr, r, rest, hi, ht⟩))))
    | poll =>
      simp only [inputTurn, pollTurn] at h
      split at h
      · rcases hturn s h with ⟨p, hp, hr, ht⟩ | ⟨ht, hc⟩
        · exact Or.inl ⟨p, s, hp, hr, Or.inl rfl, ht⟩
        · exact Or.inr (Or.inl ⟨ht, hc⟩)
      · rename_i hb
        refine Or.inr (Or.inr (Or.inr (Or.inr (Or.inr (Or.inl ⟨rest, hi, ?_, (Host.Outcome.next.inj h).symm⟩)))))
        simpa [State.busy] using hb
    | blockTurn =>
      rcases hturn (s.setInputs rest) h with ⟨p, hp, hr, ht⟩ | ⟨ht, hc⟩
      · exact Or.inl ⟨p, _, hp, hr, Or.inr ⟨rest, hi, rfl⟩, ht⟩
      · exact Or.inr (Or.inr (Or.inl ⟨rest, hi, ht, hc⟩))
    | resetLine a =>
      exact Or.inr (Or.inr (Or.inr (Or.inr (Or.inr (Or.inr (Or.inl
        ⟨a, rest, hi, (Host.Outcome.next.inj h).symm⟩))))))
    | environment c =>
      exact Or.inr (Or.inr (Or.inr (Or.inr (Or.inr (Or.inr (Or.inr
        ⟨c, rest, hi, (Host.Outcome.next.inj h).symm⟩))))))

end Sys2Proof.Machine
end

