-- ==== Sys2Proof/Laws/Bus.lean ====
section
/-! SUPPORT. A bus of conforming devices under the line primitives (44_bus_environment.md R159 to R166), and what a search
pass does on it, said once: which device it ends at, and at which positions the candidates disagreed. -/

namespace Sys2Proof.Machine

/-! ### One primitive on a bus -/

/-- A reset on a bus (R162). -/
theorem busReset_bus (p : Params) {l : Line} {ds : List Device} (h : l.env = .bus ds) :
    (busReset p l).1 = !ds.isEmpty ∧
    (busReset p l).2.env = .bus (ds.map (fun d => { d with mode := .romCmd 0 0x00 })) := by
  rw [busReset_eq]
  simp only [envReset, h, Line.made_fields, true_and]
  rfl

/-- A write slot on a bus (R163). -/
theorem lineWriteBit_bus (p : Params) (b : Bool) {l : Line} {ds : List Device} (h : l.env = .bus ds) :
    (lineWriteBit p b l).env = .bus (ds.map (fun d => { d with mode := modeAfterWrite p d.rom b d.mode })) := by
  rw [lineWriteBit_eq]
  simp only [envWrite, h, Line.made_fields]
  rfl

/-- A read slot on a bus: the devices' side (R161, R164). -/
theorem lineReadBit_bus (p : Params) {l : Line} {ds : List Device} (h : l.env = .bus ds) :
    (lineReadBit p l).2.env = .bus (ds.map (fun d => { d with mode := modeAfterRead d.mode })) := by
  rw [lineReadBit_eq]
  simp only [envRead, h, Line.made_fields]
  rfl

/-- A read slot on a bus without free senders: the AND of the levels the devices leave (R164). -/
theorem lineReadBit_level (p : Params) {l : Line} {ds : List Device} (h : l.env = .bus ds)
    (hf : ∀ d ∈ ds, d.sendsFree = false) : (lineReadBit p l).1 = ds.all Device.level := by
  have h1 : ds.any Device.sendsFree = false := by
    rw [List.any_eq_false]
    intro d hd
    simp [hf d hd]
  rw [lineReadBit_eq]
  simp [envRead, h, freeLevel, h1]

/-- A device's mode after the eight write slots of a byte. -/
def modeAfterByte (p : Params) (rom : RomCode) (v : Byte) (m : DeviceMode) : DeviceMode :=
  bitIndices.foldl (fun m i => modeAfterWrite p rom (v.getLsbD i) m) m

/-- A byte written on a bus. -/
theorem lineWriteByte_bus (p : Params) (v : Byte) {l : Line} {ds : List Device} (h : l.env = .bus ds) :
    (lineWriteByte p v l).env = .bus (ds.map (fun d => { d with mode := modeAfterByte p d.rom v d.mode })) := by
  have gen : ∀ (is : List Nat) (l : Line) (ds : List Device), l.env = .bus ds →
      (is.foldl (fun l i => lineWriteBit p (v.getLsbD i) l) l).env =
        .bus (ds.map (fun d =>
          { d with mode := is.foldl (fun m i => modeAfterWrite p d.rom (v.getLsbD i) m) d.mode })) := by
    intro is
    induction is with
    | nil => intro l ds h; simpa using h
    | cons i is ih =>
      intro l ds h
      simp only [List.foldl]
      rw [ih _ _ (lineWriteBit_bus p (v.getLsbD i) h)]
      simp
  exact gen _ _ _ h

/-- The first byte after a reset is the ROM command (R160). -/
theorem modeAfterByte_romCmd (p : Params) (rom : RomCode) (v : Byte) :
    modeAfterByte p rom v (.romCmd 0 0x00) = romCommandMode p v := by
  have assembled : ∀ v : Byte, setBit (setBit (setBit (setBit (setBit (setBit (setBit (setBit 0x00 0 (v.getLsbD 0))
      1 (v.getLsbD 1)) 2 (v.getLsbD 2)) 3 (v.getLsbD 3)) 4 (v.getLsbD 4)) 5 (v.getLsbD 5)) 6 (v.getLsbD 6))
      7 (v.getLsbD 7) = v := by decide +kernel
  simp only [modeAfterByte, bitIndices, List.foldl, modeAfterWrite, Nat.reduceAdd, Nat.reduceLT, if_true,
    if_false, assembled]

/-! ### A bus in the middle of a search -/

/-- The bus with devices of the codes `rs`, every one at position `n` of a search in one phase; `c` tells the candidates. -/
def searchBus (rs : List RomCode) (n : Nat) (ph : SearchPhase) (c : RomCode → Bool) : Env :=
  .bus (rs.map (fun r => { rom := r, mode := .search n ph (c r) }))

/-- The bus after position 64: the candidates left are selected, the others deselected (R161). -/
def searchedBus (rs : List RomCode) (c : RomCode → Bool) : Env :=
  .bus (rs.map (fun r => { rom := r, mode := if c r then .selected else .deselected }))

/-- The codes of the devices, as a list. -/
def romsOf (ds : List Device) : List RomCode := ds.map (fun d => d.rom)

/-- After a reset and the search command byte every device is a candidate at position 1 (R160). -/
theorem passStart_bus {s : State} {ds : List Device} (hp : s.params.wf = true) (h : s.line.env = .bus ds) :
    s.passReset.passStart.line.env = searchBus (romsOf ds) 1 .sendBit (fun _ => true) := by
  simp only [Params.wf, Bool.and_eq_true, bne_iff_ne, ne_eq] at hp
  have hm : romCommandMode s.params s.params.searchRomCode = .search 1 .sendBit true := by
    simp [romCommandMode, hp.1.1.2, hp.1.2]
  have h1 := lineWriteByte_bus s.params s.params.searchRomCode (busReset_bus s.params h).2
  simp only [List.map_map, Function.comp_def, modeAfterByte_romCmd, hm] at h1
  simpa [searchBus, romsOf, Function.comp_def] using h1

/-- The two reads at a position: the AND of the candidates' bits and of their complements (R165). -/
theorem readPair_bus (p : Params) {l : Line} {rs : List RomCode} {n : Nat} {c : RomCode → Bool}
    (h : l.env = searchBus rs n .sendBit c) :
    ((lineReadBit p l).1 = true ↔ ∀ r ∈ rs, c r = true → romBit r n = true) ∧
    ((lineReadBit p (lineReadBit p l).2).1 = true ↔ ∀ r ∈ rs, c r = true → romBit r n = false) ∧
    (lineReadBit p (lineReadBit p l).2).2.env = searchBus rs n .recvDir c := by
  have e1 : (lineReadBit p l).2.env = searchBus rs n .sendCmp c := by
    rw [lineReadBit_bus p h]
    simp [searchBus, modeAfterRead, Function.comp_def]
  refine ⟨?_, ?_, ?_⟩
  · rw [lineReadBit_level p h (by intro d hd; obtain ⟨r, -, rfl⟩ := List.mem_map.mp hd; rfl)]
    simp only [List.all_eq_true, List.mem_map, forall_exists_index, and_imp, forall_apply_eq_imp_iff₂]
    refine forall₂_congr fun r _ => ?_
    cases c r <;> simp [Device.level]
  · rw [lineReadBit_level p e1 (by intro d hd; obtain ⟨r, -, rfl⟩ := List.mem_map.mp hd; rfl)]
    simp only [List.all_eq_true, List.mem_map, forall_exists_index, and_imp, forall_apply_eq_imp_iff₂]
    refine forall₂_congr fun r _ => ?_
    cases c r <;> simp [Device.level]
  · rw [lineReadBit_bus p e1]
    simp [searchBus, modeAfterRead, Function.comp_def]

/-- The direction written at a position before the last (R161). -/
theorem writeDirection_bus (p : Params) (b : Bool) {l : Line} {rs : List RomCode} {n : Nat} {c : RomCode → Bool}
    (h : l.env = searchBus rs n .recvDir c) (hn : n < romBits) :
    (lineWriteBit p b l).env = searchBus rs (n + 1) .sendBit (fun r => c r && b == romBit r n) := by
  rw [lineWriteBit_bus p b h]
  simp [searchBus, modeAfterWrite, hn, Function.comp_def]

/-- The direction written at position 64 (R161). -/
theorem writeLastDirection_bus (p : Params) (b : Bool) {l : Line} {rs : List RomCode} {c : RomCode → Bool}
    (h : l.env = searchBus rs romBits .recvDir c) :
    (lineWriteBit p b l).env = searchedBus rs (fun r => c r && b == romBit r romBits) := by
  rw [lineWriteBit_bus p b h]
  simp [searchedBus, modeAfterWrite, Function.comp_def]

/-! ### A pass on a bus -/

/-- Codes `r` and `t` agree at the positions below `n`. -/
def AgreeBelow (n : Nat) (r t : RomCode) : Prop := ∀ m, 1 ≤ m → m < n → romBit r m = romBit t m

/-- At position `n` both values occur among the codes that agree with `t` below `n`: a discrepancy (R165). -/
def DisagreeAt (rs : List RomCode) (t : RomCode) (n : Nat) : Prop :=
  (∃ r ∈ rs, AgreeBelow n r t ∧ romBit r n = true) ∧ (∃ r ∈ rs, AgreeBelow n r t ∧ romBit r n = false)

/-- What a complete pass on the codes `rs` leaves, started with `ld` and ROM `old`: the code `t` of a device, chosen at
every discrepancy by R126, and `z`, the highest discrepancy resolved as 0 (R130). -/
structure PassFinds (rs : List RomCode) (ld : Nat) (old t : RomCode) (z : Nat) : Prop where
  mem : t ∈ rs
  direction : ∀ n, 1 ≤ n → n ≤ 64 → DisagreeAt rs t n →
    romBit t n = if n < ld then romBit old n else decide (n = ld)
  lastZero : z = 0 ∨ (1 ≤ z ∧ z ≤ 64 ∧ DisagreeAt rs t z ∧ romBit t z = false)
  highest : ∀ n, 1 ≤ n → n ≤ 64 → DisagreeAt rs t n → romBit t n = false → n ≤ z

theorem AgreeBelow.congr {n : Nat} {r t u : RomCode} (h : AgreeBelow n t u) :
    AgreeBelow n r t ↔ AgreeBelow n r u :=
  ⟨fun k m h1 h2 => (k m h1 h2).trans (h m h1 h2), fun k m h1 h2 => (k m h1 h2).trans (h m h1 h2).symm⟩

theorem DisagreeAt.congr {rs : List RomCode} {n : Nat} {t u : RomCode} (h : AgreeBelow n t u) :
    DisagreeAt rs t n ↔ DisagreeAt rs u n := by
  simp only [DisagreeAt, h.congr]

/-- The loop on a bus, by induction over the positions left. The candidates are the codes that agree with ROM below the
current position, and there is always one (R166). -/
theorem searchFrom_bus {rs : List RomCode} (k n : Nat) (s : State) (c : RomCode → Bool) (hn : 1 ≤ n)
    (hk : n + k = 65) (hne : ∃ r ∈ rs, c r = true) (hc : ∀ r ∈ rs, c r = true ↔ AgreeBelow n r s.rom)
    (he : if 0 < k then s.line.env = searchBus rs n .sendBit c else s.line.env = searchedBus rs c) :
    let t := searchFrom k n s
    t.result = true ∧ t.serr = false ∧ t.presence = s.presence ∧
    AgreeBelow n t.rom s.rom ∧ t.rom ∈ rs ∧
    t.line.env = searchedBus rs (fun r => decide (r = t.rom)) ∧
    (∀ m, n ≤ m → m ≤ 64 → DisagreeAt rs t.rom m →
      romBit t.rom m = if m < s.ld then romBit s.rom m else decide (m = s.ld)) ∧
    (t.ld = s.pass.lastZero ∨ (n ≤ t.ld ∧ t.ld ≤ 64 ∧ DisagreeAt rs t.rom t.ld ∧ romBit t.rom t.ld = false)) ∧
    (∀ m, n ≤ m → m ≤ 64 → DisagreeAt rs t.rom m → romBit t.rom m = false → m ≤ t.ld) ∧
    t.ldf = (t.ld == 0) ∧ t.crcOk = romValid t.rom := by
  induction k generalizing n s c with
  | zero =>
    intro t
    have hn65 : n = 65 := by omega
    subst hn65
    have hunique : ∀ r ∈ rs, c r = true ↔ r = s.rom := by
      intro r hr
      rw [hc r hr]
      exact ⟨fun h => romCode_ext (fun m h1 h2 => h m h1 (by omega)), fun h => by rw [h]; exact fun _ _ _ => rfl⟩
    obtain ⟨r, hr, hcr⟩ := hne
    have hmem : s.rom ∈ rs := by rw [← (hunique r hr).mp hcr]; exact hr
    refine ⟨rfl, rfl, rfl, fun _ _ _ => rfl, hmem, ?_, ?_, Or.inl rfl, ?_, rfl, rfl⟩
    · simp only [lt_self_iff_false, if_false] at he
      show s.line.env = _
      rw [he, searchedBus, searchedBus]
      congr 1
      apply List.map_congr_left
      intro r hr
      have : c r = decide (r = s.rom) := by rw [Bool.eq_iff_iff]; simpa using hunique r hr
      show Device.mk r (if c r = true then _ else _) = Device.mk r (if decide (r = s.rom) = true then _ else _)
      rw [this]
    · intro m h1 h2; omega
    · intro m h1 h2; omega
  | succ k ih =>
    intro t
    simp only [Nat.succ_pos, if_true] at he
    obtain ⟨ha, hb, hrecv⟩ := readPair_bus s.params he
    have hnb : ¬(((s.readPair n).pass.idBit && (s.readPair n).pass.cmpIdBit) = true) := by
      intro hboth
      simp only [Bool.and_eq_true] at hboth
      obtain ⟨r, hr, hcr⟩ := hne
      have h1 := ha.mp hboth.1 r hr hcr
      have h2 := hb.mp hboth.2 r hr hcr
      rw [h1] at h2
      cases h2
    have hstep : t = searchFrom k (n + 1) ((s.readPair n).takeBranch n) := by
      show searchFrom (k + 1) n s = _
      rw [searchFrom]
      exact if_neg hnb
    generalize hd : branchDirection n s.ld s.rom (s.readPair n).pass.idBit (s.readPair n).pass.cmpIdBit = d
    let u := (s.readPair n).takeBranch n
    have hu : u = (s.readPair n).takeBranch n := rfl
    have hurom : ∀ m, 1 ≤ m → m ≤ 64 → romBit u.rom m = if m = n then d else romBit s.rom m := by
      intro m h1 h2
      subst hd
      exact romBit_setRomBit s.rom ⟨hn, by omega⟩ ⟨h1, h2⟩ _
    have hagree : AgreeBelow n u.rom s.rom := by
      intro m h1 h2
      rw [hurom m h1 (by omega), if_neg (by omega)]
    have hun : romBit u.rom n = d := by rw [hurom n hn (by omega), if_pos rfl]
    have hbits : (lineReadBit s.params s.line).1 = (s.readPair n).pass.idBit := rfl
    have hcmps : (lineReadBit s.params (lineReadBit s.params s.line).2).1 = (s.readPair n).pass.cmpIdBit := rfl
    rw [hbits] at ha
    rw [hcmps] at hb
    -- both values occur among the candidates exactly when both reads are 0
    have hdis : DisagreeAt rs u.rom n ↔
        (s.readPair n).pass.idBit = false ∧ (s.readPair n).pass.cmpIdBit = false := by
      rw [DisagreeAt.congr hagree]
      constructor
      · rintro ⟨⟨r1, h1, g1, b1⟩, ⟨r2, h2, g2, b2⟩⟩
        constructor
        · rw [← Bool.not_eq_true, ha]
          intro h; have := h r2 h2 ((hc r2 h2).mpr g2); rw [b2] at this; cases this
        · rw [← Bool.not_eq_true, hb]
          intro h; have := h r1 h1 ((hc r1 h1).mpr g1); rw [b1] at this; cases this
      · rintro ⟨h1, h2⟩
        rw [← Bool.not_eq_true, ha] at h1
        rw [← Bool.not_eq_true, hb] at h2
        push Not at h1 h2
        obtain ⟨r1, m1, g1, b1⟩ := h1
        obtain ⟨r2, m2, g2, b2⟩ := h2
        exact ⟨⟨r2, m2, (hc r2 m2).mp g2, by simpa using b2⟩, ⟨r1, m1, (hc r1 m1).mp g1, by simpa using b1⟩⟩
    -- some candidate has the bit written
    have hsome : ∃ r ∈ rs, (c r && d == romBit r n) = true := by
      by_cases hdd : DisagreeAt rs u.rom n
      · rw [DisagreeAt.congr hagree] at hdd
        obtain ⟨⟨r1, h1, g1, b1⟩, ⟨r2, h2, g2, b2⟩⟩ := hdd
        cases hdv : d
        · exact ⟨r2, h2, by simp [(hc r2 h2).mpr g2, b2]⟩
        · exact ⟨r1, h1, by simp [(hc r1 h1).mpr g1, b1]⟩
      · rw [hdis] at hdd
        obtain ⟨r, hr, hcr⟩ := hne
        refine ⟨r, hr, ?_⟩
        clear hdis
        generalize (s.readPair n).pass.idBit = a, (s.readPair n).pass.cmpIdBit = b at hnb hd ha hb hdd
        cases a <;> cases b
        · exact absurd ⟨rfl, rfl⟩ hdd
        · have hz := hb.mp rfl r hr hcr
          rw [hcr, hz, ← hd]; rfl
        · have ho := ha.mp rfl r hr hcr
          rw [hcr, ho, ← hd]; rfl
        · exact absurd rfl hnb
    have hline : u.line = lineWriteBit s.params d (lineReadBit s.params (lineReadBit s.params s.line).2).2 := by
      subst hd; rfl
    have hcand : ∀ r ∈ rs, (c r && d == romBit r n) = true ↔ AgreeBelow (n + 1) r u.rom := by
      intro r hr
      rw [Bool.and_eq_true, hc r hr, beq_iff_eq]
      constructor
      · rintro ⟨h1, h2⟩ m hm1 hm2
        by_cases hmn : m = n
        · subst hmn; rw [hun]; exact h2.symm
        · rw [h1 m hm1 (by omega), hagree m hm1 (by omega)]
      · intro h
        refine ⟨fun m hm1 hm2 => ?_, ?_⟩
        · rw [h m hm1 (by omega), hagree m hm1 hm2]
        · rw [h n hn (by omega), hun]
    have henv : if 0 < k then u.line.env = searchBus rs (n + 1) .sendBit (fun r => c r && d == romBit r n)
        else u.line.env = searchedBus rs (fun r => c r && d == romBit r n) := by
      split
      · rw [hline]; exact writeDirection_bus s.params d hrecv (by simp only [romBits]; omega)
      · have : n = romBits := by simp only [romBits]; omega
        subst this
        rw [hline]; exact writeLastDirection_bus s.params d hrecv
    obtain ⟨i1, i2, i3, i4, i5, i6, i7, i8, i9, i10, i11⟩ :=
      ih (n + 1) u (fun r => c r && d == romBit r n) (by omega) (by omega) hsome hcand henv
    rw [← hstep] at i1 i2 i3 i4 i5 i6 i7 i8 i9 i10 i11
    have htn : romBit t.rom n = d := by rw [i4 n hn (by omega), hun]
    have hld : u.ld = s.ld := rfl
    have hdt : DisagreeAt rs t.rom n ↔ DisagreeAt rs u.rom n :=
      DisagreeAt.congr (fun m h1 h2 => i4 m h1 (by omega))
    have hz : u.pass.lastZero = if (s.readPair n).pass.idBit == (s.readPair n).pass.cmpIdBit && !d then n
        else s.pass.lastZero := by
      subst hd; rfl
    refine ⟨i1, i2, i3, ?_, i5, i6, ?_, ?_, ?_, i10, i11⟩
    · intro m h1 h2
      rw [i4 m h1 (by omega), hagree m h1 h2]
    · intro m h1 h2 h3
      by_cases hmn : m = n
      · subst hmn
        rw [hdt, hdis] at h3
        rw [htn, ← hd]
        simp only [branchDirection, h3.1, h3.2, bne_self_eq_false, Bool.false_eq_true, if_false]
        rfl
      · rw [i7 m (by omega) h2 h3, hld, hurom m (by omega) h2, if_neg hmn]
    · rcases i8 with h | ⟨h1, h2, h3, h4⟩
      · rw [hz] at h
        split at h
        · rename_i hq
          have hdf : d = false := by revert hq; cases d <;> simp
          have hdd : DisagreeAt rs t.rom n := by
            rw [hdt, hdis]
            revert hq hnb
            cases (s.readPair n).pass.idBit <;> cases (s.readPair n).pass.cmpIdBit <;> simp
          rw [h]
          exact Or.inr ⟨Nat.le_refl n, by omega, hdd, by rw [htn, hdf]⟩
        · exact Or.inl h
      · exact Or.inr ⟨by omega, h2, h3, h4⟩
    · intro m h1 h2 h3 h4
      by_cases hmn : m = n
      · subst hmn
        have hq := h3
        rw [hdt, hdis] at hq
        have hdf : d = false := by rw [← htn]; exact h4
        have hzz : u.pass.lastZero = m := by rw [hz, hq.1, hq.2, hdf]; rfl
        rcases i8 with h | ⟨h5, -⟩
        · omega
        · omega
      · exact i9 m (by omega) h2 h3 h4

/-- A pass that uses the bus, on a bus of conforming devices (R126, R130, R131, R161, R166). -/
theorem searchPass_bus {s : State} {ds : List Device} (hp : s.params.wf = true) (h : s.line.env = .bus ds)
    (hne : ds ≠ []) (hl : s.ldf = false) :
    let t := searchPass s
    t.result = true ∧ t.serr = false ∧ t.presence = true ∧
    PassFinds (romsOf ds) s.ld s.rom t.rom t.ld ∧
    t.line.env = searchedBus (romsOf ds) (fun r => decide (r = t.rom)) ∧
    t.ldf = (t.ld == 0) ∧ t.crcOk = romValid t.rom := by
  intro t
  have hpres : (busReset s.params s.line).1 = true := by
    rw [(busReset_bus s.params h).1]
    cases ds with
    | nil => exact absurd rfl hne
    | cons d ds => rfl
  have ht : t = searchFrom romBits 1 s.passReset.passStart := searchPass_present hl hpres
  have hx : ∃ r ∈ romsOf ds, (fun _ : RomCode => true) r = true := by
    cases ds with
    | nil => exact absurd rfl hne
    | cons d ds => exact ⟨d.rom, by simp [romsOf], rfl⟩
  obtain ⟨i1, i2, i3, -, i5, i6, i7, i8, i9, i10, i11⟩ :=
    searchFrom_bus romBits 1 s.passReset.passStart (fun _ => true) (by omega) rfl hx
      (fun r _ => ⟨fun _ m h1 h2 => by omega, fun _ => rfl⟩)
      (by simpa using passStart_bus hp h)
  rw [← ht] at i1 i2 i3 i5 i6 i7 i8 i9 i10 i11
  exact ⟨i1, i2, i3.trans hpres, ⟨i5, i7, i8, i9⟩, i6, i10, i11⟩

end Sys2Proof.Machine
end

