-- ==== Sys2Proof/Laws/PerInstr.lean ====
section
/-! SUPPORT. The per-instruction family Encoding (30_encoding.md R65, R66): every instruction's byte is a legal command byte
with the must-be-zero field 0 and the opcode map's code in OP. -/

namespace Sys2Proof.Laws.Encoding

/-- The byte of an instruction passes the check on command bytes, and its fields are Z = 0 and OP = its code (R65). -/
def Statement (i : Instr) : Prop :=
  commandByteWf (encode i) = true ∧ (encode i).extractLsb' 4 4 = 0 ∧ (encode i).extractLsb' 0 4 = opCode i

theorem nop : Statement .nop := by unfold Statement; decide
theorem busReset : Statement .busReset := by unfold Statement; decide
theorem writeBit : Statement .writeBit := by unfold Statement; decide
theorem readBit : Statement .readBit := by unfold Statement; decide
theorem writeByte : Statement .writeByte := by unfold Statement; decide
theorem readByte : Statement .readByte := by unfold Statement; decide
theorem searchFirst : Statement .searchFirst := by unfold Statement; decide
theorem searchNext : Statement .searchNext := by unfold Statement; decide
theorem crcClear : Statement .crcClear := by unfold Statement; decide
theorem crcUpdate : Statement .crcUpdate := by unfold Statement; decide

end Sys2Proof.Laws.Encoding
end

