-- ==== Sys2Proof/Tests/Slice0.lean ====
section
/-! SUPPORT. The model's own tests. Expected values come from spec/95_test_vectors.md (V, P and S numbers), from the opcode
map and from hand calculation on the rules; then, for every statement with hypotheses, a witness that meets them. -/

namespace Sys2Proof.Tests

open Sys2Proof.Machine

/-! ### Small states -/

/-- ROM code A of 95_test_vectors.md. -/
def romA : RomCode := #v[0x28, 0xFF, 0x4C, 0x3A, 0x91, 0x16, 0x04, 0x77]
/-- ROM code B. -/
def romB : RomCode := #v[0x28, 0x01, 0x00, 0x00, 0x00, 0x00, 0x00, 0x29]
/-- ROM code C. -/
def romC : RomCode := #v[0x10, 0xAB, 0xCD, 0xEF, 0x01, 0x00, 0x00, 0xE9]
/-- ROM code Z. -/
def romZ : RomCode := #v[0x02, 0x1C, 0xB8, 0x01, 0x00, 0x00, 0x00, 0xA2]

/-- A bus of idle devices. -/
def busOf (rs : List RomCode) : Env := .bus (rs.map Device.initial)

/-- The block after reset before environment `e`. -/
def onEnv (e : Env) : State := { State.reset with line := { Line.reset with env := e } }

/-- The block after reset before the oracle, with the sampled values to come. -/
def onDraws (bs : List Bool) : State := { State.reset with line := { Line.reset with draws := bs } }

/-- `s` with a command pending. -/
def busy (i : Instr) (v : Byte) (s : State) : State := { s with data := v, pending := some { op := i, operand := v } }

/-- `s` with inputs to come. -/
def given (is : List Input) (s : State) : State := { s with inputs := is }

/-! ### Well-formedness: for each check a term it refuses -/

theorem test_wf_command_bytes :
    commandByteWf 0x09 = true ∧ commandByteWf 0x0A = false ∧ commandByteWf 0x10 = false ∧
    commandByteWf 0x1F = false := by decide

theorem test_wf_timing :
    Timing.default.wf = true ∧
    { Timing.default with rstl := 479 }.wf = false ∧ { Timing.default with pds := 59 }.wf = false ∧
    { Timing.default with pds := 241 }.wf = false ∧ { Timing.default with rsth := 69 }.wf = false ∧
    { Timing.default with low1 := 0 }.wf = false ∧ { Timing.default with low1 := 15 }.wf = false ∧
    { Timing.default with rdl := 0 }.wf = false ∧ { Timing.default with rdl := 15 }.wf = false ∧
    { Timing.default with slot := 14, low0 := 10 }.wf = false ∧ { Timing.default with low0 := 61 }.wf = false ∧
    { Timing.default with recovery := 0 }.wf = false := by decide

theorem test_wf_params :
    Params.default.wf = true ∧ { Params.default with searchRomCode := 0xCC }.wf = false ∧
    { Params.default with searchRomCode := 0x55 }.wf = false ∧
    { Params.default with skipRomCode := 0x55 }.wf = false := by decide

theorem test_wf_inputs :
    Input.wf Params.default (.write 0x0 1 0x01) = true ∧ Input.wf Params.default (.read 0xF 1) = true ∧
    Input.wf Params.default (.write 0x0 2 0x01) = false ∧ Input.wf Params.default (.read 0x10 1) = false := by decide

/-! ### Decoding: each family's words, written out as `0000oooo` -/

theorem test_decode_bit_transport :
    decode 0b00000000 = .ok .nop ∧ decode 0b00000001 = .ok .busReset ∧ decode 0b00000010 = .ok .writeBit ∧
    decode 0b00000011 = .ok .readBit := by decide

theorem test_decode_byte_transport :
    decode 0b00000100 = .ok .writeByte ∧ decode 0b00000101 = .ok .readByte := by decide

theorem test_decode_search : decode 0b00000110 = .ok .searchFirst ∧ decode 0b00000111 = .ok .searchNext := by decide

theorem test_decode_crc : decode 0b00001000 = .ok .crcClear ∧ decode 0b00001001 = .ok .crcUpdate := by decide

/-- R67, R71; 0xF6 is illegal although OP = 6 is legal (V53). -/
theorem test_decode_rejects :
    decode 0b00001010 = .error .reservedOp ∧ decode 0b00001111 = .error .reservedOp ∧
    decode 0b00010000 = .error .illegalZ ∧ decode 0b11110110 = .error .illegalZ := by decide

theorem test_decodeTableWord :
    decodeTableWord 8 6 = some .searchFirst ∧ decodeTableWord 8 10 = none ∧ decodeTableWord 8 0x1F = none := by decide

/-! ### CRC-8 (V4, V7, V23, V25, V26) and ROM positions (key bit positions of 95_test_vectors.md) -/

theorem test_crc_vectors :
    crc8Step 0x00 0x80 = 0x8C ∧ crc8Step 0x00 0x5E = 0xC4 ∧ crc8 (List.replicate 8 0xFF) = 0xC9 ∧
    crc8 [0x02, 0x1C, 0xB8, 0x01, 0x00, 0x00, 0x00] = 0xA2 ∧
    crc8 [0x02, 0x1C, 0xB8, 0x01, 0x00, 0x00, 0x00, 0xA2] = 0x00 := by decide +kernel

theorem test_rom_valid :
    romValid romA = true ∧ romValid romB = true ∧ romValid romC = true ∧ romValid romZ = true ∧
    romValid #v[0x28, 0x00, 0x00, 0x00, 0x00, 0x00, 0x00, 0x1F] = false := by decide +kernel

theorem test_rom_positions :
    (List.range 8).map (fun i => romBit romC (i + 1)) = [false, false, false, false, true, false, false, false] ∧
    romBit romB 10 = false ∧ romBit romA 10 = true ∧ romBit romA 64 = false ∧
    setRomBit (Vector.replicate 8 0x00) 64 true = #v[0, 0, 0, 0, 0, 0, 0, 0x80] := by decide

/-! ### The commands -/

/-- V13. -/
theorem test_nop : (after .nop (busy .nop 0x00 (onEnv (busOf [])))).readValue .status = 0x20 := by decide

/-- V11, V10. -/
theorem test_busReset :
    (after .busReset (onEnv (busOf [romA]))).readValue .status = 0x26 ∧
    (after .busReset (onEnv (busOf []))).readValue .status = 0x20 := by decide

/-- V10: 960 TU; V12. -/
theorem test_busReset_line :
    (after .busReset (onEnv (busOf []))).line.timebase = 960 ∧ (after .busReset (onEnv .stuckLow)).presence = true := by
  decide

/-- V15. -/
theorem test_writeBit_ignores_high_bits :
    (after .writeBit (busy .writeBit 0xFE (onEnv .oracle))).line.activity = [.writeSlot false] ∧
    (after .writeBit (busy .writeBit 0xFE (onEnv .oracle))).data = 0xFE := by decide

/-- V16. -/
theorem test_writeBit_one :
    (after .writeBit (busy .writeBit 0x03 (onEnv .oracle))).line.activity = [.writeSlot true] := by decide

/-- V17: DATA = 5A before; 70 TU. -/
theorem test_readBit_empty_bus :
    (after .readBit { onEnv (busOf []) with data := 0x5A }).data = 0x01 ∧
    (after .readBit (onEnv (busOf []))).line.timebase = 70 := by decide

/-- V18. -/
theorem test_readBit_zero : (after .readBit { onDraws [false] with data := 0x5A }).data = 0x00 := by decide

/-- V35: bits 1,0,1,0,0,1,0,1 in time order; 560 TU. -/
theorem test_writeByte :
    (after .writeByte (busy .writeByte 0xA5 (onEnv .oracle))).line.activity.reverse =
      [.writeSlot true, .writeSlot false, .writeSlot true, .writeSlot false, .writeSlot false, .writeSlot true,
        .writeSlot false, .writeSlot true] ∧
    (after .writeByte (busy .writeByte 0xA5 (onEnv .oracle))).line.timebase = 560 := by decide

/-- V39. -/
theorem test_readByte :
    (after .readByte (onDraws [false, false, false, false, true, false, true, false])).data = 0x50 := by decide

/-- V39a: the queue of 0xA5 comes back. -/
theorem test_readByte_loopback :
    (after .readByte (onEnv (.loopback [true, false, true, false, false, true, false, true]))).data = 0xA5 := by decide

/-- V40 pass 1. -/
theorem test_searchFirst :
    let t := after .searchFirst (onEnv (busOf [romA, romB, romC]))
    t.rom = romC ∧ t.ld = 4 ∧ t.readValue .status = 0x2E := by decide +kernel

/-- V48: a data error at position 3 after the directions 0, 1. -/
theorem test_searchFirst_data_error :
    let t := after .searchFirst (onDraws [true, false, true, true, false, true, true])
    t.rom[0] = 0x02 ∧ t.serr = true ∧ t.result = false ∧ t.ld = 0 ∧ t.line.timebase = 2080 := by decide +kernel

/-- V41 pass 3: the 0 replayed at position 2, below LD = 10, is recorded. -/
theorem test_searchNext_replay :
    let t := after .searchNext { onEnv (busOf [romA, romB, romC, romZ]) with ld := 10, rom := romB }
    t.rom = romA ∧ t.ld = 2 ∧ t.ldf = false := by decide +kernel

/-- V42: exhausted. -/
theorem test_searchNext_exhausted :
    let t := after .searchNext { onEnv (busOf [romA]) with ldf := true, result := true, rom := romA }
    t.result = false ∧ t.ldf = true ∧ t.rom = romA ∧ t.line.activity = [] := by decide

/-- V28. -/
theorem test_crcClear :
    let t := after .crcClear { State.reset with crc := 0x5E }
    t.crc = 0x00 ∧ t.result = true := by decide

/-- V29, V31. -/
theorem test_crcUpdate :
    (after .crcUpdate (busy .crcUpdate 0x01 State.reset)).crc = 0x5E ∧
    (after .crcUpdate (busy .crcUpdate 0x01 State.reset)).result = false ∧
    (after .crcUpdate (busy .crcUpdate 0x5E { State.reset with crc := 0x5E })).result = true := by decide

/-! ### The host interface -/

/-- V51, V53. -/
theorem test_illegal_command :
    (State.reset.hostWrite .cmd 0x1F).readValue .err = 0x01 ∧ (State.reset.hostWrite .cmd 0x1F).busy = false ∧
    (State.reset.hostWrite .cmd 0xF6).readValue .err = 0x01 := by decide

/-- V54. -/
theorem test_overrun :
    ((busy .busReset 0x33 State.reset).hostWrite .data 0x55).readValue .err = 0x02 ∧
    ((busy .busReset 0x33 State.reset).hostWrite .data 0x55).data = 0x33 := by decide

/-- V55, V57. -/
theorem test_err_write :
    ({ busy .nop 0x00 State.reset with illcmd := true, overrun := true }.hostWrite .err 0x01).readValue .err = 0x02 ∧
    ({ State.reset with illcmd := true }.hostWrite .err 0x00).readValue .err = 0x01 := by decide

/-- V58, V59. -/
theorem test_read_only_and_reserved :
    (State.reset.hostWrite .ld 0x12).readValue .ld = 0x00 ∧
    (State.reset.hostWrite .fctrl 0xFF).readValue .fctrl = 0x01 := by decide

/-- V60. -/
theorem test_fam_match :
    { State.reset with rom := romB, filterEn := true, filter := 0x10 }.famMatch = false ∧
    { State.reset with rom := romB, filterEn := true, filter := 0x28 }.famMatch = true := by decide

/-- R50, R53: the two host accesses the machine stops on, at the boundary address. -/
theorem test_bad_accesses :
    step (given [.read 16 1] State.reset) = .fault (.outsideBlock 16) ∧
    step (given [.write 0 2 0x01] State.reset) = .refused (.accessWidth 2) := ⟨rfl, rfl⟩

/-- R190: the reset input that stays released changes no register; released after it was asserted, it resets them. -/
theorem test_reset_pin :
    ({ State.reset with data := 0x33 }.setResetPin false).data = 0x33 ∧
    ({ State.reset with data := 0x33, resetPin := true }.setResetPin false).data = 0x00 := by decide

/-! ### The device side, by hand from R159, R161 and R164 -/

/-- A device that joins is idle, so a read slot reads 1 and a write slot leaves it idle. -/
theorem test_join_is_idle :
    (busOf [romA]).change (.join romB) = busOf [romA, romB] ∧
    (lineReadBit Params.default { Line.reset with env := (busOf []).change (.join romB) }).1 = true := by decide

/-- A device that waits for a direction sends nothing in a read slot, candidate or not, and goes on waiting. -/
theorem test_read_slot_while_a_direction_is_due :
    let l := { Line.reset with env := .bus [{ rom := romA, mode := .search 1 .recvDir true }] }
    (lineReadBit Params.default l).1 = true ∧ (lineReadBit Params.default l).2.env = l.env := by decide

/-- A device that is no candidate leaves a 0 of its own unsent, and a write slot leaves it silent. -/
theorem test_no_candidate_is_silent :
    let l := { Line.reset with env := .bus [{ rom := romA, mode := .search 1 .sendBit false }] }
    (lineReadBit Params.default l).1 = true ∧
    (lineReadBit Params.default (lineWriteBit Params.default true l)).1 = true := by decide

/-- R163: a write slot is no matter to a device that was deselected or is idle. -/
theorem test_deselected_stays_silent :
    let d : Device := { rom := romA, mode := .search 64 .recvDir false }
    (d.afterWrite Params.default false).mode = .deselected ∧
    ((d.afterWrite Params.default false).afterWrite Params.default true).mode = .deselected ∧
    ((Device.initial romA).afterWrite Params.default true).mode = .idle := by decide

/-- A command placed for the next step runs: READ_BIT on the oracle with a 0 to come. -/
theorem test_withFetchWord :
    (match step ((onDraws [false]).withFetchWord 8 3) with
      | .next t => t.data == 0x00 && t.line.activity == [.readSlot false]
      | _ => false) = true := by decide

/-! ### Witnesses: the hypotheses of each statement are met, clause by clause

A statement that is not named here has no hypotheses (or only an equation that defines its variable). -/

theorem witness_ResetRegistersReadAsListed :
    (∃ s, s = State.reset) ∧ (∃ s t, t.pending ≠ none ∧ s = State.setResetPin t true) ∧
    ∃ s t, t.resetPin = true ∧ s = State.setResetPin t false :=
  ⟨⟨_, rfl⟩, ⟨_, busy .nop 0x01 State.reset, by decide, rfl⟩, _, State.reset.setResetPin true, rfl, rfl⟩

theorem witness_CommandWordsDecodeAsTheOpcodeMap :
    (0x0A ≤ (0x0A : Byte).toNat ∧ (0x0A : Byte).toNat ≤ 0x0F) ∧
    (0x0A ≤ (0x0F : Byte).toNat ∧ (0x0F : Byte).toNat ≤ 0x0F) ∧
    0x10 ≤ (0x10 : Byte).toNat ∧ 0x10 ≤ (0xFF : Byte).toNat := by decide

theorem witness_EncodeAndDecodeAgree :
    decode 0x00 = .ok .nop ∧ decode 0x09 = .ok .crcUpdate ∧ commandByteWf 0x09 = true := by decide

theorem witness_StepRunsTheDecodedCommand :
    (∃ (s : State) (p : Pending), s.pending = some p ∧ s.resetPin = false ∧ s.inputs = []) ∧
    (∃ (s : State) (p : Pending) (rest : List Input), s.pending = some p ∧ s.resetPin = false ∧ s.inputs = .blockTurn :: rest) ∧
    (∃ (s : State) (p : Pending) (rest : List Input), s.pending = some p ∧ s.resetPin = false ∧ s.inputs = .poll :: rest) ∧
    (∃ (s : State) (rest : List Input), s.inputs = .write (hostAddr s.params .cmd) 1 0x09 :: rest) ∧
    (∃ (s : State) (rest : List Input), s.inputs = .write (s.params.blockBase + (0x7 : Offset).toNat) 1 0x03 :: rest) ∧
    (∃ (s : State) (rest : List Input), s.inputs = .write (s.params.blockBase + (0xF : Offset).toNat) 1 0x03 :: rest) ∧
    decode 0x09 = .ok .crcUpdate :=
  ⟨⟨busy .readBit 0x01 State.reset, _, rfl, rfl, rfl⟩,
    ⟨given [.blockTurn] (busy .readBit 0x01 State.reset), _, [], rfl, rfl, rfl⟩,
    ⟨given [.poll] (busy .readBit 0x01 State.reset), _, [], rfl, rfl, rfl⟩,
    ⟨given [.write 0 1 0x09] State.reset, [], rfl⟩,
    ⟨given [.write 7 1 0x03] State.reset, [], rfl⟩, ⟨given [.write 15 1 0x03] State.reset, [], rfl⟩, rfl⟩

theorem witness_CmdWriteAcceptsOrFlags :
    State.reset.pending = none ∧ State.reset.resetPin = false ∧
    ((0x09 : Byte).extractLsb' 4 4 = 0 ∧ ((0x09 : Byte).extractLsb' 0 4).toNat ≤ 9) ∧
    ¬((0x0A : Byte).extractLsb' 4 4 = 0 ∧ ((0x0A : Byte).extractLsb' 0 4).toNat ≤ 9) ∧
    ¬((0x10 : Byte).extractLsb' 4 4 = 0 ∧ ((0x10 : Byte).extractLsb' 0 4).toNat ≤ 9) := by decide

theorem witness_OnlyBadHostAccessesStop :
    (given [.write 0 2 0x01] State.reset).inputs = [.write 0 2 0x01] ∧ 2 ≠ 1 ∧
    (given [.read 0 0] State.reset).inputs = [.read 0 0] ∧ 0 ≠ 1 ∧
    (given [.read 16 1] State.reset).inputs = [.read 16 1] ∧
    ¬(State.reset.params.blockBase ≤ 16 ∧ 16 < State.reset.params.blockBase + 16) ∧
    ¬(({ Params.default with blockBase := 0x1000 } : Params).blockBase ≤ 0xFFF ∧
      0xFFF < ({ Params.default with blockBase := 0x1000 } : Params).blockBase + 16) := by decide

theorem witness_PendingCommandCompletesInBoundedSteps :
    let s := given [.write 0xF 1 0x00, .read 0x0 1, .poll, .environment .stuckLow] (busy .searchFirst 0x00 State.reset)
    s.pending ≠ none ∧ s.resetPin = false ∧ ∀ i ∈ s.inputs, Input.wf s.params i = true := by decide

theorem witness_WriteWhileBusyOnlySetsOverrun :
    (busy .busReset 0x33 State.reset).pending ≠ none ∧ (busy .busReset 0x33 State.reset).resetPin = false ∧
    Reg.cmd ≠ .err ∧ Reg.rom 7 ≠ .err := by decide

theorem witness_ErrIsWriteOneToClear :
    State.reset.resetPin = false ∧ State.reset.pending = none ∧ (∀ i, encode i ≠ 0x0A) ∧
    (busy .nop 0x00 State.reset).resetPin = false ∧ (busy .nop 0x00 State.reset).pending ≠ none ∧ Reg.data ≠ .err ∧
    { State.reset with illcmd := true, overrun := true }.illcmd = true ∧
    exec .nop State.reset = .next (after .nop State.reset) :=
  ⟨rfl, rfl, by intro i; cases i <;> decide, rfl, by decide, by decide, rfl, rfl⟩

theorem witness_ReadOnlyAndReservedBitsIgnoreWrites :
    State.reset.pending = none ∧ Reg.rom 7 = .rom 7 ∧ (1 : Nat) ≤ 1 ∧ (1 : Nat) ≤ 7 ∧ (2 : Nat) ≤ 2 := by decide

theorem witness_WritableRegistersReadBack : State.reset.pending = none ∧ State.reset.resetPin = false := by decide

theorem witness_ReadsWhileBusyAreFree : (busy .readByte 0x00 State.reset).pending ≠ none := by decide

theorem witness_HostReadsHaveNoSideEffect :
    (given [.read 0xF 1, .poll] State.reset).inputs =
      .read ((given [.read 0xF 1, .poll] State.reset).params.blockBase + (0xF : Offset).toNat) 1 :: [.poll] ∧
    (given [.read 0xF 1, .poll] State.reset).pending = none := by decide

theorem witness_MnemonicExpansionRunsItsCommand :
    (let s := given (progCommand Params.default .searchFirst) State.reset
     s.pending = none ∧ s.resetPin = false ∧ s.inputs = progCommand s.params .searchFirst) ∧
    Instr.searchFirst ≠ .readBit ∧ Instr.searchFirst ≠ .readByte ∧
    let s := given (progCommandWith Params.default .crcUpdate 0x01) State.reset
    s.pending = none ∧ s.resetPin = false ∧ s.inputs = progCommandWith s.params .crcUpdate 0x01 := by decide

theorem witness_BlockResetRestoresEveryElement :
    State.reset.resetPin = false ∧ (given [.resetLine false] State.reset).inputs = .resetLine false :: [] ∧
    (given [.resetLine true] (busy .searchFirst 0x33 (onEnv (busOf [romA])))).inputs = .resetLine true :: [] ∧
    (busy .searchFirst 0x33 (onEnv (busOf [romA]))).pending ≠ none ∧
    (busy .searchFirst 0x33 (onEnv (busOf [romA]))).line.env = busOf [romA] ∧
    (given [.resetLine false] (State.reset.setResetPin true)).resetPin = true ∧
    (given [.resetLine false] (State.reset.setResetPin true)).inputs = .resetLine false :: [] ∧
    (given [.resetLine false] (State.reset.setResetPin true)).pending = none := by decide

theorem witness_AssertedResetHoldsTheBlock :
    (State.reset.setResetPin true).resetPin = true ∧ (State.reset.setResetPin true).inputs = [] ∧
    (given [.blockTurn, .poll] (State.reset.setResetPin true)).inputs = .blockTurn :: [.poll] := by decide

theorem witness_CommandTimeIsTheSumOfItsPrimitives :
    State.reset.params.timing.wf = true ∧ exec .busReset State.reset = .next (after .busReset State.reset) :=
  ⟨by decide, rfl⟩

theorem witness_CommandMakesAtMostOneResetAndTwoHundredSlots :
    exec .searchFirst State.reset = .next (after .searchFirst State.reset) := rfl

theorem witness_NopChangesNothing :
    (busy .busReset 0x00 State.reset).pending ≠ none ∧ (busy .busReset 0x00 State.reset).resetPin = false := by decide

theorem witness_BusResetWritesPresenceAndResult :
    (onEnv (.bus [])).line.env = .bus [] ∧ (onEnv .stuckLow).line.env = .stuckLow ∧
    (onEnv (busOf [romA, romB])).line.env = busOf [romA, romB] ∧
    (onEnv (busOf [romA])).line.env = .bus [{ rom := romA, mode := .idle }] ∧
    (onEnv (busOf [romA])).filterEn = false ∧ (onEnv (busOf [romA])).ldf = false ∧
    (onEnv (busOf [romA])).crcOk = false ∧ (onEnv (busOf [romA])).serr = false := by decide

theorem witness_ResetEndsEveryDeviceSession : (onEnv (busOf [romA])).line.env = busOf [romA] := by decide

theorem witness_WriteBitSendsBitZero :
    (busy .writeBit 0xFE State.reset).pending = some { op := .writeBit, operand := 0xFE } := by decide

/-- A device that sends its first bit, which is 0. -/
def sending : Device := { rom := romA, mode := .search 1 .sendBit true }

theorem witness_ReadBitPutsTheBitInData :
    (∀ d ∈ [({ rom := romA, mode := .romCmd 3 0x05 } : Device), { rom := romB, mode := .search 64 .sendCmp false },
        { rom := romC, mode := .search 1 .recvDir true }],
      d.mode = .idle ∨ d.mode = .deselected ∨ (∃ k v, d.mode = .romCmd k v) ∨
      (∃ k ok, d.mode = .matchRom k ok) ∨ (∃ n ph, d.mode = .search n ph false) ∨
      ∃ n c, d.mode = .search n .recvDir c) ∧
    sending ∈ [sending] ∧ sending.mode = .search 1 .sendBit true ∧ romBit sending.rom 1 = false ∧
    romBit romA 4 = true :=
  ⟨by simp, by simp, rfl, by decide, by decide⟩

theorem witness_WriteByteSendsEightBitsLsbFirst :
    (busy .writeByte 0xA5 State.reset).pending = some { op := .writeByte, operand := 0xA5 } := by decide

theorem witness_ReadByteAssemblesEightBitsLsbFirst :
    (∀ d ∈ [({ rom := romA, mode := .idle } : Device), { rom := romB, mode := .search 64 .sendBit false },
        { rom := romC, mode := .search 64 .recvDir true }],
      d.mode = .idle ∨ d.mode = .deselected ∨ (∃ k v, d.mode = .romCmd k v) ∨
      (∃ k ok, d.mode = .matchRom k ok) ∨ (∃ n ph, d.mode = .search n ph false) ∨
      ∃ n c, d.mode = .search n .recvDir c) ∧
    (onDraws [false, false, false, false, true, false, true, false]).line.env = .oracle ∧
    (onDraws [false, false, false, false, true, false, true, false]).line.draws =
      [false, false, false, false, true, false, true, false] :=
  ⟨by simp, rfl, rfl⟩

theorem witness_EmptyBusReadsAllOnes : (onEnv (.bus [])).line.env = .bus [] := by decide

theorem witness_LoopbackReturnsTheWrittenByte :
    (busy .writeByte 0xA5 (onEnv (.loopback []))).pending = some { op := .writeByte, operand := 0xA5 } ∧
    (busy .writeByte 0xA5 (onEnv (.loopback []))).line.env = .loopback [] ∧
    (onEnv (.loopback [true])).line.env = .loopback [true] ∧ 0 < 8 ∧ 7 < 8 := by decide

theorem witness_BusSlotsActOnEveryDevice :
    (onEnv (.bus [sending])).line.env = .bus [sending] ∧
    (∀ d ∈ [sending], d.mode ≠ .selected ∧ d.mode ≠ .unknown) ∧ sending.mode = .search 1 .sendBit true ∧
    ({ sending with mode := .search 64 .recvDir false } : Device).mode = .search 64 .recvDir false ∧
    ({ sending with mode := .search 1 .recvDir true } : Device).mode = .search 1 .recvDir true ∧
    ({ sending with mode := .deselected } : Device).mode = .deselected ∧
    (∃ d ∈ [sending, { rom := romB, mode := .unknown }], d.mode = .selected ∨ d.mode = .unknown) ∧
    (∃ d ∈ [({ rom := romA, mode := .selected } : Device)], d.mode = .selected ∨ d.mode = .unknown) ∧
    (∀ n ph c, DeviceMode.deselected ≠ .search n ph c) ∧ ∀ n ph c, DeviceMode.romCmd 7 0x00 ≠ .search n ph c :=
  ⟨rfl, by decide, rfl, rfl, rfl, rfl, by simp, by simp, by simp, by simp⟩

theorem witness_RomCommandsAddressDevices :
    Params.default.wf = true ∧ (onEnv (busOf [romA, romB])).line.env = busOf [romA, romB] ∧
    (0x33 : Byte) ≠ Params.default.skipRomCode ∧ (0x33 : Byte) ≠ Params.default.matchRomCode ∧
    (0x33 : Byte) ≠ Params.default.searchRomCode := by decide

theorem witness_RomPositionsReadAfterWrite :
    (1 : Nat) ≤ 1 ∧ 1 ≤ 64 ∧ 1 ≤ 64 ∧ (64 : Nat) ≤ 64 ∧ 0 < 8 ∧ 7 < 8 := by decide

/-- Each of the four ways a pass goes is taken (V42, V43, V48, V40). -/
theorem witness_SearchPassFollowsItsLineActivity :
    { State.reset with ldf := true }.ldf = true ∧
    (searchPass (onEnv (busOf []))).line.activity = [.reset false] ∧
    (searchPass (onDraws [true, true, true])).serr = true ∧ (searchPass (onEnv (busOf [romA]))).result = true := by
  decide +kernel

theorem witness_SearchFirstStartsAnEnumeration :
    (onEnv (.bus [])).line.env = .bus [] ∧
    (onEnv (busOf [romA])).line.env = .bus [{ rom := romA, mode := .idle }] ∧
    (onEnv (busOf [romA])).params.wf = true := by decide

theorem witness_SearchNextContinuesAnEnumeration :
    { State.reset with ldf := true }.ldf = true ∧ State.reset.ldf = false ∧ State.reset.ld = 0 := by decide

theorem witness_EveryCommandKeepsTheSearchInvariants :
    exec .searchFirst (onDraws [true, true, true]) = .next (after .searchFirst (onDraws [true, true, true])) ∧
    { State.reset with ld := 64 }.ld ≤ 64 ∧ { State.reset with ldf := true }.ld = 0 ∧
    (after .searchFirst (onDraws [true, true, true])).serr = true ∧
    (after .searchFirst (onDraws [true, true, true])).result = false :=
  ⟨rfl, by decide, rfl, by decide +kernel, by decide +kernel⟩

theorem witness_OperandIsLatchedAtAcceptance :
    (busy .writeByte 0xA5 State.reset).pending = some { op := .writeByte, operand := 0xA5 } := by decide

theorem witness_SearchReadsTellTheCandidatesBits :
    (onEnv (.bus [sending, { rom := romC, mode := .search 1 .sendBit false }])).line.env =
      .bus [sending, { rom := romC, mode := .search 1 .sendBit false }] ∧
    ∀ d ∈ [sending, { rom := romC, mode := .search 1 .sendBit false }], ∃ c, d.mode = .search 1 .sendBit c :=
  ⟨rfl, by simp [sending]⟩

theorem witness_ConformingBusPassFindsADevice :
    let s := { onEnv (busOf [romA, romB]) with ld := 10, rom := romC }
    s.params.wf = true ∧ s.line.env = busOf [romA, romB] ∧ s.ldf = false := by decide

theorem witness_EnumerationFindsEveryDeviceInTreeOrder :
    (onEnv (busOf [romA, romB, romC])).params.wf = true ∧
    (onEnv (busOf [romA, romB, romC])).line.env = busOf [romA, romB, romC] ∧ [romA, romB, romC] ≠ [] ∧
    [romA, romB, romC].Nodup := by decide

theorem witness_SearchFirstFindsTheFirstCode :
    (onEnv (busOf [romA, romB])).params.wf = true ∧
    (onEnv (busOf [romA, romB])).line.env = busOf [romA, romB] ∧ [romA, romB] ≠ [] := by decide

theorem witness_StuckLowLineReadsAsTheZeroCode :
    (onEnv .stuckLow).line.env = .stuckLow ∧ (onEnv .stuckLow).ldf = false := by decide

theorem witness_CrcUpdateFoldsTheOperand :
    (busy .crcUpdate 0x01 State.reset).pending = some { op := .crcUpdate, operand := 0x01 } := by decide

theorem witness_ValidFrameHasZeroCrc :
    2 ≤ [(0x01 : Byte), 0x5E].length ∧ frameValid [0x01, 0x5E] = true ∧ frameValid [0x01, 0x5F] = false := by decide

/-- The scratchpad of program P2. -/
theorem witness_CrcCommandsCheckAScratchpad :
    State.reset.resetPin = false ∧ [(0x50 : Byte), 0x05, 0x4B, 0x46, 0x7F, 0xFF, 0x0C, 0x10, 0x1C].length = 9 ∧
    frameValid [0x50, 0x05, 0x4B, 0x46, 0x7F, 0xFF, 0x0C, 0x10, 0x1C] = true := by decide +kernel

theorem witness_SingleBitErrorsAreDetected :
    romValid romA = true ∧ (1 : Nat) ≤ 1 ∧ 1 ≤ 64 ∧ (64 : Nat) ≤ 64 := by decide +kernel

theorem witness_CommandsWriteOnlyTheirState :
    exec .readByte State.reset = .next (after .readByte State.reset) ∧ State.reset.pending = none ∧
    State.reset.resetPin = false ∧ ∀ i, encode i ≠ 0xFF :=
  ⟨rfl, rfl, rfl, by intro i; cases i <;> decide⟩

theorem witness_OnlySearchOrResetChangesTheSearchState :
    step (busy .searchFirst 0x00 State.reset) = .next (after .searchFirst (busy .searchFirst 0x00 State.reset)) := rfl

theorem witness_StepKeepsParametersAndHistory :
    step (given [.poll] State.reset) = .next ((given [.poll] State.reset).hostRead .status |>.setInputs []) := rfl

theorem witness_HostAccessesNeverReachTheLine :
    (given [.write 0 1 0x01] State.reset).inputs = [.write 0 1 0x01] ∧
    step (given [.write 0 1 0x01] State.reset) = .next (State.reset.accept .busReset) ∧
    (given [.read 1 1] State.reset).inputs = [.read 1 1] ∧
    step (given [.read 1 1] State.reset) = .next (State.reset.hostRead .status) := ⟨rfl, rfl, rfl, rfl⟩

/-- A state with every bit of the invariant in use: an exhausted enumeration with a valid code, and a command pending. -/
theorem witness_EveryStepKeepsTheInvariant :
    ∃ s t, Inv s ∧ s.ldf = true ∧ s.crcOk = true ∧ s.pending ≠ none ∧ step s = .next t := by
  refine ⟨{ busy .searchNext 0x00 (onEnv (busOf [romA])) with ldf := true, crcOk := true, rom := romA }, _,
    ⟨by decide, fun _ => rfl, fun h => (by cases h), fun _ => (by decide +kernel), rfl,
      fun h => (by cases h)⟩,
    rfl, rfl, by decide, rfl⟩

theorem witness_NewDevicesStartIdle :
    (given [.environment (.leave 0)] (onEnv (busOf [romA]))).inputs = [.environment (.leave 0)] ∧
    (busOf [romA]).change (.join romB) = .bus [Device.initial romA, Device.initial romB] ∧
    Device.initial romB ∈ [Device.initial romA, Device.initial romB] := by decide

end Sys2Proof.Tests
end

section
/-! The 64 positions of a ROM code (00_scope.md section 5). -/

namespace Sys2Proof.Machine

/-- Settles O35: a written position is told from the others by its byte and the bit in that byte, and every bit of
every byte is the bit of some position, so the positions determine the code (R10). -/
theorem romPositionsReadAfterWrite : Obligations.RomPositionsReadAfterWrite := by
  refine ⟨?readAfterWrite, ?ext, ?byteAndBit⟩
  case readAfterWrite =>
    intro r n m b hn1 hn64 hm1 hm64
    exact romBit_setRomBit r ⟨hn1, hn64⟩ ⟨hm1, hm64⟩ b
  case ext => exact fun _ _ => romCode_ext
  case byteAndBit => exact fun r k _ => romBit_byte r k

end Sys2Proof.Machine
end

section
/-! The host register interface said once: which command bytes the decoder takes (30_encoding.md R68), what a
host write can do (10_state.md R46(a), 70_reset_and_hazards.md R190, R200), and the bits of STATUS, FCTRL and ERR as
the host reads them (R23, R28, R30). -/

namespace Sys2Proof.Machine

/-! ### Command bytes -/

/-- The opcode map names each command by its own code only (R66). -/
theorem opCode_of_decodeOp {op : BitVec 4} {i : Instr} (h : decodeOp op = .ok i) : opCode i = op := by
  unfold decodeOp at h
  split at h <;> cases h <;> exact BitVec.eq_of_toNat_eq (Eq.symm ‹_›)

/-- A byte that decodes is the encoding of the command it decodes to (R65, R68). -/
theorem encode_of_decode {v : Byte} {i : Instr} (h : decode v = .ok i) : encode i = v := by
  unfold decode at h
  split at h
  · rename_i hz
    calc encode i = v.extractLsb' 4 4 ++ v.extractLsb' 0 4 := by rw [encode, opCode_of_decodeOp h, hz]
      _ = v.extractLsb' 0 8 := BitVec.extractLsb'_append_extractLsb'_eq_extractLsb' rfl
      _ = v := BitVec.extractLsb'_eq_self
  · cases h

/-- A host write of CMD with a byte that encodes no command sets ILLCMD and does nothing else (R68). -/
theorem State.writeCmd_illegal {s : State} {v : Byte} (h : ∀ i, encode i ≠ v) : s.writeCmd v = s.flagIllcmd := by
  cases hd : decode v with
  | ok i => exact absurd (encode_of_decode hd) (h i)
  | error e => simp [State.writeCmd, hd]

/-! ### Host writes -/

/-- While the reset input is asserted a host write does nothing (R190). -/
theorem State.hostWrite_inReset {s : State} (hr : s.resetPin = true) (r : Reg) (v : Byte) :
    s.hostWrite r v = s := by
  simp [State.hostWrite, hr]

/-- While idle a host write is the register effect (R46(a)). -/
theorem State.hostWrite_idle {s : State} (hr : s.resetPin = false) (hp : s.pending = none) (r : Reg) (v : Byte) :
    s.hostWrite r v = s.regWrite r v := by
  simp [State.hostWrite, State.busy, hr, hp]

/-- While BUSY a host write of any register but ERR sets OVERRUN and does nothing else (R200). -/
theorem State.hostWrite_busy {s : State} (hr : s.resetPin = false) (hp : s.pending ≠ none) {r : Reg}
    (hne : r ≠ .err) (v : Byte) : s.hostWrite r v = s.flagOverrun := by
  simp [State.hostWrite, State.busy, hr, hne, Option.isSome_iff_ne_none, hp]

/-- A host write of ERR is done while BUSY too (R30). -/
theorem State.hostWrite_err {s : State} (hr : s.resetPin = false) (v : Byte) :
    s.hostWrite .err v = s.clearErr v := by
  simp [State.hostWrite, State.regWrite, hr]

/-- All a host write can do: nothing, the register effect, or, to a register other than ERR while BUSY, set OVERRUN. -/
theorem State.hostWrite_cases (s : State) (r : Reg) (v : Byte) :
    s.hostWrite r v = s ∨ s.hostWrite r v = s.regWrite r v ∨
    (s.pending ≠ none ∧ r ≠ .err ∧ s.hostWrite r v = s.flagOverrun) := by
  cases hr : s.resetPin with
  | true => exact Or.inl (State.hostWrite_inReset hr r v)
  | false =>
    by_cases hne : r = .err
    · subst hne; exact Or.inr (Or.inl (State.hostWrite_err hr v))
    · by_cases hp : s.pending = none
      · exact Or.inr (Or.inl (State.hostWrite_idle hr hp r v))
      · exact Or.inr (Or.inr ⟨hp, hne, State.hostWrite_busy hr hp hne v⟩)

/-- A host write looks at the value written only through the register effect. -/
theorem State.hostWrite_congr {s : State} {r : Reg} {v w : Byte} (h : s.regWrite r v = s.regWrite r w) :
    s.hostWrite r v = s.hostWrite r w := by
  simp only [State.hostWrite, h]

/-- A host write of a read-only register while idle does nothing (R32). -/
theorem State.hostWrite_readOnly {s : State} (hp : s.pending = none) {r : Reg}
    (h : r = .status ∨ r = .ld ∨ r = .crc ∨ ∃ k, r = .rom k) (v : Byte) : s.hostWrite r v = s := by
  have heffect : s.regWrite r v = s := by
    obtain rfl | rfl | rfl | ⟨k, rfl⟩ := h <;> rfl
  rcases s.hostWrite_cases r v with hw | hw | ⟨hb, -, -⟩
  · exact hw
  · exact hw.trans heffect
  · exact absurd hp hb

/-- No register effect but that of ERR clears an error bit (R30). -/
theorem State.regWrite_errorsSticky (s : State) {r : Reg} (hne : r ≠ .err) (v : Byte) :
    (s.illcmd = true → (s.regWrite r v).illcmd = true) ∧ (s.overrun = true → (s.regWrite r v).overrun = true) := by
  cases r
  case cmd =>
    show (_ → (s.writeCmd v).illcmd = true) ∧ (_ → (s.writeCmd v).overrun = true)
    unfold State.writeCmd
    split
    · exact ⟨id, id⟩
    · exact ⟨fun _ => rfl, id⟩
  case err => exact absurd rfl hne
  all_goals exact ⟨id, id⟩

/-- No host write but that of ERR clears an error bit (R30). -/
theorem State.hostWrite_errorsSticky (s : State) {r : Reg} (hne : r ≠ .err) (v : Byte) :
    (s.illcmd = true → (s.hostWrite r v).illcmd = true) ∧
    (s.overrun = true → (s.hostWrite r v).overrun = true) := by
  rcases s.hostWrite_cases r v with hw | hw | ⟨-, -, hw⟩ <;> rw [hw]
  · exact ⟨id, id⟩
  · exact s.regWrite_errorsSticky hne v
  · exact ⟨id, fun _ => rfl⟩

/-! ### Bits of the flag registers -/

/-- A flag stands at its own bit. -/
theorem getLsbD_flagAt {i : Nat} (hi : i < 8) (b : Bool) (k : Nat) :
    (flagAt i b).getLsbD k = (b && decide (k = i)) := by
  cases b
  · simp [flagAt]
  · by_cases hk : k = i
    · subst hk; simp [flagAt, hi]
    · simp [flagAt, hk]; omega

/-- ERR and FCTRL read exactly, BUSY or not (R47). -/
@[simp] theorem State.readValue_err (s : State) : s.readValue .err = s.errByte := by
  unfold State.readValue
  split <;> rfl

@[simp] theorem State.readValue_fctrl (s : State) : s.readValue .fctrl = s.fctrlByte := by
  unfold State.readValue
  split <;> rfl

/-- ERR bit by bit (R30). -/
theorem State.getLsbD_errByte (s : State) (k : Nat) :
    s.errByte.getLsbD k = ((s.illcmd && decide (k = 0)) || (s.overrun && decide (k = 1))) := by
  rw [State.errByte, BitVec.getLsbD_or, getLsbD_flagAt (by decide), getLsbD_flagAt (by decide)]

/-- FCTRL bit by bit (R28). -/
theorem State.getLsbD_fctrlByte (s : State) (k : Nat) :
    s.fctrlByte.getLsbD k = (s.filterEn && decide (k = 0)) :=
  getLsbD_flagAt (by decide) s.filterEn k

/-- The reserved bits of ERR read 0 (R32). -/
theorem State.readValue_err_reserved (s : State) {k : Nat} (hk : 2 ≤ k) : (s.readValue .err).getLsbD k = false := by
  have h0 : k ≠ 0 := by omega
  have h1 : k ≠ 1 := by omega
  simp [State.getLsbD_errByte, h0, h1]

/-- The reserved bits of FCTRL read 0 (R32). -/
theorem State.readValue_fctrl_reserved (s : State) {k : Nat} (hk : 1 ≤ k) :
    (s.readValue .fctrl).getLsbD k = false := by
  have h0 : k ≠ 0 := by omega
  simp [State.getLsbD_fctrlByte, h0]

/-- The reserved bit of STATUS reads 0, BUSY or not (R23, R47). -/
theorem State.readValue_status_reserved (s : State) : (s.readValue .status).getLsbD 7 = false := by
  unfold State.readValue
  split
  · simp [State.busyRegValue, busyStatusByte]
  · simp only [State.regValue, State.statusByte, BitVec.getLsbD_or, getLsbD_flagAt, Nat.reduceLT]
    simp

/-- Settles O11: while idle the register effect of a read-only register is none, FCTRL takes bit 0 and ERR bits 1:0
of the value written, and no flag stands at a reserved bit (R32). -/
theorem readOnlyAndReservedBitsIgnoreWrites : Obligations.ReadOnlyAndReservedBitsIgnoreWrites := by
  intro s v
  refine ⟨?readOnly, ?fctrlWrite, ?errWrite, s.readValue_status_reserved,
    fun _ => s.readValue_fctrl_reserved, fun _ => s.readValue_err_reserved⟩
  case readOnly => exact fun r hp hr => State.hostWrite_readOnly hp hr v
  case fctrlWrite => exact State.hostWrite_congr (by simp [State.regWrite])
  case errWrite => exact State.hostWrite_congr (by simp [State.regWrite, State.clearErr])

end Sys2Proof.Machine
end

section
/-! What each command writes (10_state.md R40), and ERR, which no command writes (R30). -/

namespace Sys2Proof.Machine

/-! ### The table of R40, column by column -/

/-- SEARCH_FIRST leaves alone what its search pass does. -/
theorem effect_searchFirst_frame (s : State) : PassFrame s (effect .searchFirst s) :=
  have hclear : PassFrame s s.clearSearch := ⟨rfl, rfl, rfl, rfl, rfl, rfl, rfl, rfl, rfl, rfl, rfl, rfl⟩
  hclear.trans (searchPass_frame s.clearSearch)

/-- No command writes FILTER, FCTRL or ERR. -/
theorem effect_hostRegisters (i : Instr) (s : State) :
    (effect i s).filter = s.filter ∧ (effect i s).filterEn = s.filterEn ∧
    (effect i s).illcmd = s.illcmd ∧ (effect i s).overrun = s.overrun := by
  have hsearch : ∀ {t : State}, PassFrame s t → t.filter = s.filter ∧ t.filterEn = s.filterEn ∧
      t.illcmd = s.illcmd ∧ t.overrun = s.overrun :=
    fun h => ⟨h.filter, h.filterEn, h.illcmd, h.overrun⟩
  cases i
  case searchFirst => exact hsearch (effect_searchFirst_frame s)
  case searchNext => exact hsearch (searchPass_frame s)
  all_goals exact ⟨rfl, rfl, rfl, rfl⟩

/-- Only the reads from the line write DATA. -/
theorem effect_data {i : Instr} (hbit : i ≠ .readBit) (hbyte : i ≠ .readByte) (s : State) :
    (effect i s).data = s.data := by
  cases i
  case readBit => exact absurd rfl hbit
  case readByte => exact absurd rfl hbyte
  case searchFirst => exact (effect_searchFirst_frame s).data
  case searchNext => exact (searchPass_frame s).data
  all_goals rfl

/-- Only the CRC commands write CRC. -/
theorem effect_crc {i : Instr} (hclear : i ≠ .crcClear) (hupdate : i ≠ .crcUpdate) (s : State) :
    (effect i s).crc = s.crc := by
  cases i
  case crcClear => exact absurd rfl hclear
  case crcUpdate => exact absurd rfl hupdate
  case searchFirst => exact (effect_searchFirst_frame s).crc
  case searchNext => exact (searchPass_frame s).crc
  all_goals rfl

/-- Only a reset pulse writes PRESENCE: BUS_RESET and the searches make one. -/
theorem effect_presence {i : Instr} (hreset : i ≠ .busReset) (hfirst : i ≠ .searchFirst) (hnext : i ≠ .searchNext)
    (s : State) : (effect i s).presence = s.presence := by
  cases i
  case busReset => exact absurd rfl hreset
  case searchFirst => exact absurd rfl hfirst
  case searchNext => exact absurd rfl hnext
  all_goals rfl

/-- NOP and the bit and byte transfers do not write RESULT. -/
theorem effect_result {i : Instr} (hi : i = .nop ∨ i = .writeBit ∨ i = .readBit ∨ i = .writeByte ∨ i = .readByte)
    (s : State) : (effect i s).result = s.result := by
  obtain rfl | rfl | rfl | rfl | rfl := hi <;> rfl

/-- Only the searches write the search state and its flags. -/
theorem effect_searchState {i : Instr} (hfirst : i ≠ .searchFirst) (hnext : i ≠ .searchNext) (s : State) :
    (effect i s).ld = s.ld ∧ (effect i s).ldf = s.ldf ∧ (effect i s).rom = s.rom ∧
    (effect i s).serr = s.serr ∧ (effect i s).crcOk = s.crcOk ∧ (effect i s).pass = s.pass := by
  cases i
  case searchFirst => exact absurd rfl hfirst
  case searchNext => exact absurd rfl hnext
  all_goals exact ⟨rfl, rfl, rfl, rfl, rfl, rfl⟩

/-- NOP and the CRC commands do not use the line. -/
theorem effect_line {i : Instr} (hi : i = .nop ∨ i = .crcClear ∨ i = .crcUpdate) (s : State) :
    (effect i s).line = s.line := by
  obtain rfl | rfl | rfl := hi <;> rfl

/-- Completion clears BUSY and lets the overhead pass; it writes nothing of the host's side. -/
theorem State.complete_outside {s t : State} (h : SameOutside s t) : SameOutside s t.complete :=
  ⟨h.resetPin, h.inputs, h.responses, h.readDraws, h.params⟩

/-- Settles O54: a command is its effect and then the completion, and each register is left alone by the effect of every
command that R40 does not list for it; an illegal code is never accepted and only sets ILLCMD. -/
theorem commandsWriteOnlyTheirState : Obligations.CommandsWriteOnlyTheirState := by
  refine ⟨?command, ?illegal⟩
  case command =>
    intro i s t ht
    obtain rfl := exec_next ht
    obtain ⟨hfilter, hfilterEn, hillcmd, hoverrun⟩ := effect_hostRegisters i s
    have houtside := effect_outside i s
    refine ⟨rfl, State.complete_outside houtside, hfilter, hfilterEn, hillcmd, hoverrun,
      fun hbit hbyte => effect_data hbit hbyte s, fun hclear hupdate => effect_crc hclear hupdate s,
      fun hreset hfirst hnext => effect_presence hreset hfirst hnext s, fun hi => effect_result hi s,
      fun hfirst hnext => effect_searchState hfirst hnext s, fun hi => ?line⟩
    case line =>
      show (effect i s).line.overhead (effect i s).params = s.line.overhead s.params
      rw [effect_line hi s, houtside.params]
  case illegal =>
    intro s v hp hr hv
    exact (State.hostWrite_idle hr hp .cmd v).trans (State.writeCmd_illegal hv)

/-- Settles O10: an illegal code and a write while BUSY flag their bits, a write of ERR is done BUSY or not, and neither
a command nor a write of another register clears a bit (R30). -/
theorem errIsWriteOneToClear : Obligations.ErrIsWriteOneToClear := by
  refine ⟨rfl, rfl, rfl, fun s v hr => ⟨?setIllcmd, ?setOverrun, State.hostWrite_err hr v, ?bit0, ?bit1,
    fun _ => s.readValue_err_reserved, ?commandKeeps, fun r w hne => s.hostWrite_errorsSticky hne w⟩⟩
  case setIllcmd =>
    intro hp hv
    rw [State.hostWrite_idle hr hp]
    exact congrArg State.illcmd (State.writeCmd_illegal hv)
  case setOverrun =>
    intro hp r hne
    rw [State.hostWrite_busy hr hp hne, State.flagOverrun]
  case bit0 => rw [State.readValue_err, State.getLsbD_errByte]; simp
  case bit1 => rw [State.readValue_err, State.getLsbD_errByte]; simp
  case commandKeeps =>
    intro i t ht
    obtain rfl := exec_next ht
    obtain ⟨-, -, hillcmd, hoverrun⟩ := effect_hostRegisters i s
    exact ⟨hillcmd, hoverrun⟩

end Sys2Proof.Machine
end

section
/-! A host write of CMD while idle (30_encoding.md R68): the bytes the decoder takes, and what each kind of byte
does. -/

namespace Sys2Proof.Machine

/-- Every command code is at most 9 (R66). -/
theorem opCode_le_nine (i : Instr) : (opCode i).toNat ≤ 9 := by
  cases i <;> decide

/-- The opcode map has no gap below the reserved codes (R66). -/
theorem decodeOp_ok_of_le_nine {op : BitVec 4} (h : op.toNat ≤ 9) : ∃ i, decodeOp op = .ok i := by
  unfold decodeOp
  interval_cases op.toNat <;> exact ⟨_, rfl⟩

/-- The fields of a byte that decodes: Z is 0, and OP is the code of the command (R65). -/
theorem fields_of_decode {v : Byte} {i : Instr} (h : decode v = .ok i) :
    v.extractLsb' 4 4 = 0 ∧ opCode i = v.extractLsb' 0 4 := by
  unfold decode at h
  split at h
  · exact ⟨‹_›, opCode_of_decodeOp h⟩
  · cases h

/-- The decoder takes exactly the bytes of the decode rule (R68). -/
theorem decode_ok_iff {v : Byte} :
    (∃ i, decode v = .ok i) ↔ v.extractLsb' 4 4 = 0 ∧ (v.extractLsb' 0 4).toNat ≤ 9 := by
  constructor
  · rintro ⟨i, h⟩
    obtain ⟨hz, hop⟩ := fields_of_decode h
    exact ⟨hz, hop ▸ opCode_le_nine i⟩
  · rintro ⟨hz, hop⟩
    obtain ⟨i, hi⟩ := decodeOp_ok_of_le_nine hop
    exact ⟨i, (if_pos hz).trans hi⟩

/-- The decoder inverts the encoder (R65, R66). -/
theorem decode_encode (i : Instr) : decode (encode i) = .ok i := by
  cases i <;> rfl

/-- A host write of CMD with a byte that decodes makes its command pending (R68, R69). -/
theorem State.writeCmd_legal {s : State} {v : Byte} {i : Instr} (h : decode v = .ok i) :
    s.writeCmd v = s.accept i := by
  rw [State.writeCmd, h]

/-- Settles O5: the decoder takes exactly the bytes with Z = 0 and OP at most 9, and the write accepts what it takes
and flags the rest. -/
theorem cmdWriteAcceptsOrFlags : Obligations.CmdWriteAcceptsOrFlags := by
  intro s v hp hr
  rw [State.hostWrite_idle hr hp]
  refine ⟨fun hlegal => ?accepted, fun hillegal => ?flagged⟩
  case accepted =>
    obtain ⟨i, hi⟩ := decode_ok_iff.2 hlegal
    exact ⟨i, (fields_of_decode hi).2, State.writeCmd_legal hi⟩
  case flagged =>
    have hnocode : ∀ i, encode i ≠ v := fun i hv => hillegal (decode_ok_iff.1 ⟨i, hv ▸ decode_encode i⟩)
    exact State.writeCmd_illegal hnocode

end Sys2Proof.Machine
end

section
/-! The commands of the bit transport (40_line_driver.md R93 to R104) and the time a command takes (R107). Each command
is its effect and then the completion (`exec_eq`); the effect of BUS_RESET, WRITE_BIT or READ_BIT is one line primitive
and what it writes. -/

namespace Sys2Proof.Machine

/-- A completed command has made the primitives of its effect, and the overhead has passed (R107). -/
theorem Made.complete {s t : State} {acts : List LineActivity} (h : Made s.params acts s.line t.line)
    (hparams : t.params = s.params) (hw : s.params.timing.wf = true) :
    t.complete.line.activity = acts ++ s.line.activity ∧
    t.complete.line.timebase =
      s.line.timebase + (acts.map (activityTime s.params.timing)).sum + s.params.timing.cmd := by
  simp [h.activity, h.time hw, hparams]

/-- Settles O22: the effect of a command makes a list of primitives, which take their line time (R107), and the
completion adds `T_CMD`. -/
theorem commandTimeIsTheSumOfItsPrimitives : Obligations.CommandTimeIsTheSumOfItsPrimitives := by
  refine ⟨?command, fun _ => rfl, fun _ => rfl, fun _ => rfl⟩
  case command =>
    intro i s t hw ht
    obtain rfl := exec_next ht
    obtain ⟨acts, hmade, -, -⟩ := effect_made i s
    exact ⟨acts, hmade.complete (effect_outside i s).params hw⟩

/-- Settles O24: NOP has no effect before its completion, and its code is refused while BUSY like any other (R200). -/
theorem nopChangesNothing : Obligations.NopChangesNothing := by
  refine ⟨rfl, exec_eq .nop, ?whileBusy⟩
  case whileBusy => exact fun s hp hr => State.hostWrite_busy (r := .cmd) hr hp nofun 0b00000000

/-! ### BUS_RESET -/

/-- PRESENCE and RESULT after BUS_RESET are the environment's answer to the reset (R95, R96). -/
theorem after_busReset_presenceResult (s : State) :
    (after .busReset s).presence = (envReset s.line).1 ∧ (after .busReset s).result = (envReset s.line).1 := by
  simp [after_eq, effect, busReset_eq]

/-- With FILTER off, FAM_MATCH reads 1; beside it an idle STATUS shows PRESENCE and RESULT where the search flags are
clear (R23, R39). -/
theorem State.readValue_status_presenceResult {s : State} (hidle : s.pending = none) (hpresence : s.presence = true)
    (hresult : s.result = true) (hfilter : s.filterEn = false) (hldf : s.ldf = false) (hcrc : s.crcOk = false)
    (hserr : s.serr = false) : s.readValue .status = 0x26 := by
  simp [State.readValue, State.regValue, State.statusByte, State.busy, State.famMatch, flagAt, hidle, hpresence,
    hresult, hfilter, hldf, hcrc, hserr]

/-- Settles O25: PRESENCE and RESULT are the answer of the environment, which is 0 on an empty bus and 1 on a line
held low, and every device on a bus starts a new session (R162). -/
theorem busResetWritesPresenceAndResult : Obligations.BusResetWritesPresenceAndResult := by
  refine ⟨rfl, exec_eq .busReset, ?emptyBus, ?stuckLow, ?sessions, ?oneDevice⟩
  case emptyBus => intro s he; simp [after_busReset_presenceResult, envReset, he]
  case stuckLow => intro s he; simp [after_busReset_presenceResult, envReset, he]
  case sessions => exact fun s ds he => (busReset_bus s.params he).2
  case oneDevice =>
    intro s d he hfilter hldf hcrc hserr
    have hpresent : (envReset s.line).1 = true := by simp [envReset, he]
    obtain ⟨hpresence, hresult⟩ := after_busReset_presenceResult s
    exact State.readValue_status_presenceResult rfl (hpresence.trans hpresent) (hresult.trans hpresent) hfilter hldf
      hcrc hserr

/-! ### WRITE_BIT -/

/-- While a command is pending its operand is the byte latched at acceptance (R35). -/
theorem State.operand_pending {s : State} {p : Pending} (h : s.pending = some p) : s.operand = p.operand := by
  rw [State.operand, h]

/-- A write slot leaves the environment as the environment's own write rule does (R163). -/
theorem lineWriteBit_env (p : Params) (b : Bool) (l : Line) : (lineWriteBit p b l).env = (envWrite p b l).env := by
  simp [lineWriteBit_eq]

/-- Settles O27: the operand's bit 0 goes out in one write slot, whose record and environment are those of the
primitive. -/
theorem writeBitSendsBitZero : Obligations.WriteBitSendsBitZero := by
  refine ⟨rfl, ?command, by decide, by decide⟩
  case command =>
    intro s v hp
    have heffect : effect .writeBit s = s.setLine (lineWriteBit s.params (v.getLsbD 0) s.line) := by
      rw [effect, State.operandBit, State.operand_pending hp]
    rw [after_eq, exec_eq, heffect]
    exact ⟨rfl, (lineWriteBit_made s.params (v.getLsbD 0) s.line).activity, lineWriteBit_env s.params _ s.line⟩

/-! ### READ_BIT -/

/-- A device that waits for a reset, receives a ROM command byte, an address or a direction, is deselected or is no
candidate sends nothing in a read slot (R161, R164). -/
theorem Device.silent {d : Device} (h : d.mode = .idle ∨ d.mode = .deselected ∨ (∃ k v, d.mode = .romCmd k v) ∨
    (∃ k ok, d.mode = .matchRom k ok) ∨ (∃ n ph, d.mode = .search n ph false) ∨
    ∃ n c, d.mode = .search n .recvDir c) : d.sendsFree = false ∧ d.level = true := by
  obtain h | h | ⟨k, v, h⟩ | ⟨k, ok, h⟩ | ⟨n, ph, h⟩ | ⟨n, c, h⟩ := h <;> rw [Device.sendsFree, Device.level, h]
  · exact ⟨rfl, rfl⟩
  · exact ⟨rfl, rfl⟩
  · exact ⟨rfl, rfl⟩
  · exact ⟨rfl, rfl⟩
  · cases ph <;> exact ⟨rfl, rfl⟩
  · exact ⟨rfl, rfl⟩

/-- A search candidate whose turn is to send a 0 holds the line low (R103, R161). -/
theorem Device.level_sendsZero {d : Device} {n : Nat}
    (h : d.mode = .search n .sendBit true ∧ romBit d.rom n = false ∨
      d.mode = .search n .sendCmp true ∧ romBit d.rom n = true) : d.level = false := by
  obtain ⟨hmode, hbit⟩ | ⟨hmode, hbit⟩ := h <;> simp [Device.level, hmode, hbit]

/-- A bus on which nobody sends reads 1 (R104). -/
theorem lineReadBit_silent (p : Params) {l : Line} {ds : List Device} (h : l.env = .bus ds)
    (hs : ∀ d ∈ ds, d.sendsFree = false ∧ d.level = true) : (lineReadBit p l).1 = true := by
  rw [lineReadBit_level p h fun d hd => (hs d hd).1, List.all_eq_true]
  exact fun d hd => (hs d hd).2

/-- One device that holds the line low makes the slot read 0, whatever the others send (R103). -/
theorem lineReadBit_heldLow (p : Params) {l : Line} {ds : List Device} {d : Device} (h : l.env = .bus ds)
    (hd : d ∈ ds) (hlow : d.level = false) : (lineReadBit p l).1 = false := by
  have hall : ds.all Device.level = false := List.all_eq_false.2 ⟨d, hd, by simp [hlow]⟩
  simp [lineReadBit_eq, envRead, h, hall]

/-- DATA after READ_BIT is the bit sampled, zero-extended (R104). -/
theorem after_readBit_data (s : State) : (after .readBit s).data = zextBit (lineReadBit s.params s.line).1 := rfl

/-- Settles O28: the bit of the one read slot is 1 where every device leaves the line high, and 0 where one device holds
it low. -/
theorem readBitPutsTheBitInData : Obligations.ReadBitPutsTheBitInData := by
  refine ⟨rfl, ?command, ?silentBus, ?zeroSent⟩
  case command => exact fun s => ⟨exec_eq .readBit s, (lineReadBit_made s.params s.line).activity⟩
  case silentBus =>
    intro s ds he hds
    rw [after_readBit_data, lineReadBit_silent s.params he fun d hd => Device.silent (hds d hd)]
    rfl
  case zeroSent =>
    intro s ds d n he hd hsends
    rw [after_readBit_data, lineReadBit_heldLow s.params he hd (Device.level_sendsZero hsends)]
    rfl

end Sys2Proof.Machine
end

section
/-! The commands of the byte transport (41_byte_transport.md R111 to R119) and the loopback stub (R168). A byte goes out as
eight write slots and comes in as eight read slots, bit 0 first. What comes in is said once for every environment that
has the next bits in store (`FeedsReads`): a loopback stub, an oracle with supplied draws, a bus on which nobody sends. -/

namespace Sys2Proof.Machine

/-! ### WRITE_BYTE -/

/-- What an environment makes of a write slot depends on nothing else of the line (R163). -/
theorem envWrite_env_congr (p : Params) (b : Bool) {l m : Line} (h : l.env = m.env) :
    (envWrite p b l).env = (envWrite p b m).env := by
  rw [envWrite, envWrite, ← h]
  cases he : l.env <;> simp [he, ← h]

/-- Write slots in a row leave the environment as its own write rule, slot by slot, does. -/
theorem foldl_lineWriteBit_env (p : Params) (v : Byte) (is : List Nat) {l m : Line} (h : l.env = m.env) :
    (is.foldl (fun l i => lineWriteBit p (v.getLsbD i) l) l).env =
      (is.foldl (fun l i => envWrite p (v.getLsbD i) l) m).env := by
  induction is generalizing l m with
  | nil => exact h
  | cons i is ih => exact ih ((lineWriteBit_env p _ l).trans (envWrite_env_congr p _ h))

/-- With WRITE_BYTE pending the effect is the latched byte sent on the line (R112). -/
theorem effect_writeByte {s : State} {v : Byte} (hp : s.pending = some { op := .writeByte, operand := v }) :
    effect .writeByte s = s.setLine (lineWriteByte s.params v s.line) := by
  rw [effect, State.operand_pending hp]

/-- Settles O29: the effect is the byte sent, whose eight slots are recorded bit 0 first, and each slot acts on the
environment by its write rule. -/
theorem writeByteSendsEightBitsLsbFirst : Obligations.WriteByteSendsEightBitsLsbFirst := by
  refine ⟨rfl, ?command⟩
  case command =>
    intro s v hp
    rw [after_eq, exec_eq, effect_writeByte hp]
    exact ⟨rfl, (lineWriteByte_made s.params v s.line).activity, foldl_lineWriteBit_env s.params v bitIndices rfl⟩

/-! ### READ_BYTE -/

/-- The bits of a byte in the order the line takes them (R110). -/
def byteBits (v : Byte) : List Bool := bitIndices.map v.getLsbD

/-- A byte whose bits are set one by one is the byte they come from (R113). -/
theorem foldl_setBit_getLsbD (v : Byte) : bitIndices.foldl (fun w i => setBit w i (v.getLsbD i)) 0x00 = v := by
  apply BitVec.eq_of_getLsbD_eq
  intro k hk
  interval_cases k <;> simp [bitIndices, getLsbD_setBit, -BitVec.getLsbD_eq_getElem]

/-- `Has q l` means that the bits `q` are in store on the line `l`: a read slot takes the first one and leaves the rest. -/
def FeedsReads (p : Params) (Has : List Bool → Line → Prop) : Prop :=
  ∀ b q l, Has (b :: q) l → (lineReadBit p l).1 = b ∧ Has q (lineReadBit p l).2

/-- Read slots at the bit indices `is` assemble the bits in store, where these are the bits of `v` there. -/
theorem FeedsReads.foldl_readByteStep {p : Params} {Has : List Bool → Line → Prop} (hfeeds : FeedsReads p Has)
    (v : Byte) (q : List Bool) (is : List Nat) (w : Byte) {l : Line} (h : Has (is.map v.getLsbD ++ q) l) :
    (is.foldl (readByteStep p) (w, l)).1 = is.foldl (fun w i => setBit w i (v.getLsbD i)) w ∧
    Has q (is.foldl (readByteStep p) (w, l)).2 := by
  induction is generalizing w l with
  | nil => exact ⟨rfl, h⟩
  | cons i is ih =>
    obtain ⟨hbit, hrest⟩ := hfeeds _ _ _ h
    simpa [readByteStep, hbit] using ih (setBit w i (v.getLsbD i)) hrest

/-- A byte whose bits are in store is the byte that is read (R113). -/
theorem FeedsReads.readByte {p : Params} {Has : List Bool → Line → Prop} (hfeeds : FeedsReads p Has)
    {v : Byte} {q : List Bool} {l : Line} (h : Has (byteBits v ++ q) l) :
    (lineReadByte p l).1 = v ∧ Has q (lineReadByte p l).2 := by
  obtain ⟨hbyte, hrest⟩ := hfeeds.foldl_readByteStep v q bitIndices 0x00 h
  exact ⟨hbyte.trans (foldl_setBit_getLsbD v), hrest⟩

/-- An oracle has the draws in store that the outside supplies (R158). -/
theorem feedsReads_oracle (p : Params) : FeedsReads p (fun q l => l.env = .oracle ∧ l.draws = q) := by
  rintro b q l ⟨he, hd⟩
  simp [lineReadBit_eq, envRead, nextDraw, he, hd]

/-- The modes in which a device sends nothing, whatever read slots follow (R161, R164). -/
def DeviceMode.Silent (m : DeviceMode) : Prop :=
  m = .idle ∨ m = .deselected ∨ (∃ k v, m = .romCmd k v) ∨ (∃ k ok, m = .matchRom k ok) ∨
    (∃ n ph, m = .search n ph false) ∨ ∃ n c, m = .search n .recvDir c

/-- A read slot keeps a silent device silent: a search that goes on has no candidate in it (R161). -/
theorem DeviceMode.Silent.afterRead {m : DeviceMode} (h : m.Silent) : (modeAfterRead m).Silent := by
  obtain rfl | rfl | ⟨k, v, rfl⟩ | ⟨k, ok, rfl⟩ | ⟨n, _ | _ | _, rfl⟩ | ⟨n, c, rfl⟩ := h <;>
    simp [modeAfterRead, DeviceMode.Silent]

/-- A bus on which every device is silent has ones in store (R164). -/
theorem feedsReads_silentBus (p : Params) :
    FeedsReads p (fun q l => (∀ b ∈ q, b = true) ∧ ∃ ds, l.env = .bus ds ∧ ∀ d ∈ ds, d.mode.Silent) := by
  rintro b q l ⟨hones, ds, he, hsilent⟩
  obtain ⟨hb, hq⟩ := List.forall_mem_cons.1 hones
  refine ⟨?bit, hq, _, lineReadBit_bus p he, ?stillSilent⟩
  case bit => rw [hb, lineReadBit_silent p he fun d hd => Device.silent (hsilent d hd)]
  case stillSilent => exact List.forall_mem_map.2 fun d hd => (hsilent d hd).afterRead

/-- DATA after READ_BYTE is the byte read (R114). -/
theorem after_readByte_data (s : State) : (after .readByte s).data = (lineReadByte s.params s.line).1 := rfl

/-- Settles O30: the record of the eight slots is the bits of DATA; a silent bus has eight ones in store, the oracle the
bits of 0x50. -/
theorem readByteAssemblesEightBitsLsbFirst : Obligations.ReadByteAssemblesEightBitsLsbFirst := by
  refine ⟨rfl, ?command, ?silentBus, ?oracle⟩
  case command => exact fun s => ⟨exec_eq .readByte s, (lineReadByte_made s.params s.line).activity⟩
  case silentBus =>
    intro s ds he hsilent
    have hones : ∀ b ∈ byteBits 0xFF ++ [], b = true := by decide
    exact ((feedsReads_silentBus s.params).readByte ⟨hones, ds, he, hsilent⟩).1
  case oracle =>
    intro s he hdraws
    have hbits : s.line.draws = byteBits 0x50 ++ [] := hdraws
    exact ((feedsReads_oracle s.params).readByte ⟨he, hbits⟩).1

/-! ### The empty bus -/

/-- An empty bus has ones in store and stays empty (R115). -/
theorem feedsReads_emptyBus (p : Params) :
    FeedsReads p (fun q l => (∀ b ∈ q, b = true) ∧ l.env = .bus []) := by
  rintro b q l ⟨hones, he⟩
  obtain ⟨hb, hq⟩ := List.forall_mem_cons.1 hones
  exact ⟨hb ▸ lineReadBit_silent p he nofun, hq, lineReadBit_bus p he⟩

/-- Settles O31: eight ones in store make a READ_BYTE and one makes a READ_BIT; the check byte of eight 0xFF is 0xC9,
which is not the ninth 0xFF. -/
theorem emptyBusReadsAllOnes : Obligations.EmptyBusReadsAllOnes := by
  refine ⟨?reads, by decide +kernel, by decide +kernel⟩
  case reads =>
    intro s he
    have hones : ∀ b ∈ byteBits 0xFF ++ [], b = true := by decide
    obtain ⟨hbyte, -, hbyteEnv⟩ := (feedsReads_emptyBus s.params).readByte ⟨hones, he⟩
    obtain ⟨hbit, -, hbitEnv⟩ := feedsReads_emptyBus s.params true [] s.line ⟨by simp, he⟩
    exact ⟨hbyte, hbyteEnv, by rw [after_readBit_data, hbit]; rfl, hbitEnv⟩

/-! ### The loopback stub -/

/-- A write slot puts its bit at the end of the queue (R168). -/
theorem lineWriteBit_loopback (p : Params) (b : Bool) {l : Line} {q : List Bool} (h : l.env = .loopback q) :
    (lineWriteBit p b l).env = .loopback (q ++ [b]) := by
  rw [lineWriteBit_env, envWrite, h]

/-- A read slot takes the oldest bit off the queue, and reads 1 where there is none (R168). -/
theorem lineReadBit_loopback (p : Params) {l : Line} {q : List Bool} (h : l.env = .loopback q) :
    (lineReadBit p l).1 = q.headD true ∧ (lineReadBit p l).2.env = .loopback q.tail := by
  cases q <;> simp [lineReadBit_eq, envRead, h]

/-- A loopback stub has its queue in store (R168). -/
theorem feedsReads_loopback (p : Params) : FeedsReads p (fun q l => l.env = .loopback q) :=
  fun _ _ _ h => lineReadBit_loopback p h

/-- Write slots in a row put their bits on the queue in order. -/
theorem foldl_lineWriteBit_loopback (p : Params) (v : Byte) (is : List Nat) {l : Line} {q : List Bool}
    (h : l.env = .loopback q) :
    (is.foldl (fun l i => lineWriteBit p (v.getLsbD i) l) l).env = .loopback (q ++ is.map v.getLsbD) := by
  induction is generalizing l q with
  | nil => simpa using h
  | cons i is ih => simpa using ih (lineWriteBit_loopback p (v.getLsbD i) h)

/-- WRITE_BYTE to an empty stub leaves the bits of the byte in the queue, bit 0 first (R119). -/
theorem after_writeByte_loopback {s : State} {v : Byte} (hp : s.pending = some { op := .writeByte, operand := v })
    (he : s.line.env = .loopback []) : (after .writeByte s).line.env = .loopback (byteBits v) := by
  rw [after_eq, effect_writeByte hp]
  exact foldl_lineWriteBit_loopback s.params v bitIndices he

/-- After `k` READ_BITs the stub has given up the first `k` bits of its queue (R168). -/
theorem iterate_readBit_loopback {s : State} {q : List Bool} (h : s.line.env = .loopback q) (k : Nat) :
    ((after .readBit)^[k] s).line.env = .loopback (q.drop k) := by
  induction k with
  | zero => exact h
  | succ k ih =>
    rw [Function.iterate_succ_apply', ← List.tail_drop]
    exact (lineReadBit_loopback ((after .readBit)^[k] s).params ih).2

/-- The READ_BIT after `k` others puts bit `k` of the queue in DATA, and 1 where the queue is shorter (R104, R168). -/
theorem iterate_readBit_loopback_data {s : State} {q : List Bool} (h : s.line.env = .loopback q) (k : Nat) :
    ((after .readBit)^[k + 1] s).data = zextBit (q[k]?.getD true) := by
  rw [Function.iterate_succ_apply', after_readBit_data, (lineReadBit_loopback _ (iterate_readBit_loopback h k)).1,
    List.headD_eq_head?_getD, List.head?_drop]

/-- Bit `k` of a byte is the `k`-th bit on the line (R110). -/
theorem byteBits_getElem? (v : Byte) {k : Nat} (hk : k < 8) : (byteBits v)[k]? = some (v.getLsbD k) := by
  have hindices : bitIndices = List.range 8 := rfl
  simp [byteBits, hindices, hk]

/-- Settles O32: WRITE_BYTE leaves the bits of the byte in the queue, and either way of reading takes them off it in
the same order. -/
theorem loopbackReturnsTheWrittenByte : Obligations.LoopbackReturnsTheWrittenByte := by
  refine ⟨?queue, by decide, ?writtenByte⟩
  case queue => exact fun p l q b h => ⟨lineWriteBit_loopback p b h, lineReadBit_loopback p h⟩
  case writtenByte =>
    intro s v hp he
    have hqueue := after_writeByte_loopback hp he
    have hstore : (after .writeByte s).line.env = .loopback (byteBits v ++ []) := by simpa using hqueue
    obtain ⟨hbyte, henv⟩ := (feedsReads_loopback (after .writeByte s).params).readByte hstore
    refine ⟨hbyte, henv, fun k hk => ?bit⟩
    case bit =>
      rw [iterate_readBit_loopback_data hqueue k, byteBits_getElem? v hk]
      rfl

end Sys2Proof.Machine
end

section
/-! A search pass told from its line activity (42_rom_search.md R123), and what SEARCH_FIRST and SEARCH_NEXT leave of the
search state (R122, R124, R137). The pass is the loop over the positions, whose whole effect is `searchPass_effect`. -/

namespace Sys2Proof.Machine

/-! ### From the loop's record to the terms of R123 -/

/-- The directions from position 1 on are those R126 lists case by case. -/
theorem DirectionsFrom.follow {ld : Nat} {rom : RomCode} {xs : List Position} (h : DirectionsFrom 1 ld rom xs) :
    DirectionsFollow ld rom xs := by
  intro k x hx
  obtain ⟨hboth, hdir⟩ := h k x hx
  rw [Nat.add_comm 1 k, branchDirection] at hdir
  refine ⟨by simpa using hboth, fun hne => ?agreed, fun he hlt => ?replayed, fun he hat => ?atLd, fun he hgt => ?above⟩
  case agreed => simpa [hne] using hdir
  case replayed => simpa [he, hlt] using hdir
  case atLd => simpa [he, hat] using hdir
  case above => simpa [he, Nat.not_lt_of_gt hgt, beq_false_of_ne (Nat.ne_of_gt hgt)] using hdir

/-- The code after the positions from 1 on holds their directions and keeps the later positions (R129, R133). -/
theorem RomFrom.holds {s t : RomCode} {xs : List Position} (h : RomFrom 1 s t xs) : RomHolds s t xs := by
  obtain ⟨hmade, hkept⟩ := h
  refine ⟨fun k x hx => ?made, fun n hn hn64 => ?kept⟩
  case made => rw [Nat.add_comm]; exact hmade k x hx
  case kept => exact hkept n (by omega) hn64 (Or.inr (by omega))

/-- `last_zero` from position 1 on is the highest discrepancy resolved as 0 (R130). -/
theorem isLastZero_lastZeroFrom (xs : List Position) : IsLastZero (lastZeroFrom 1 0 xs) xs := by
  obtain ⟨hwhere, hhighest, -, -⟩ := lastZeroFrom_spec 1 0 xs Nat.one_pos
  refine ⟨hwhere.imp_right ?_, fun k x hx hz => ?_⟩
  · rintro ⟨j, x, hx, hz, hj⟩
    exact ⟨x, by rwa [hj, Nat.add_sub_cancel_left], hz⟩
  · rw [Nat.add_comm]; exact hhighest k x hx hz

/-- The check of step 6, as the equation it tests (R123). -/
theorem romValid_eq_decide (r : RomCode) : romValid r = decide (crc8 (r.toList.take 7) = r[7]) := rfl

/-- The record of a line oldest first, where it is kept newest first. -/
theorem Made.activity_reverse {p : Params} {acts : List LineActivity} {l m : Line} (h : Made p acts.reverse l m) :
    m.activity.reverse = l.activity.reverse ++ acts := by
  rw [h.activity, List.reverse_append, List.reverse_reverse]

/-- Settles O36: the pass is exhausted, finds nobody, or runs the loop from position 1 after the reset and the search
command byte; the loop stops at the first pair of ones or makes all 64 positions. -/
theorem searchPassFollowsItsLineActivity : Obligations.SearchPassFollowsItsLineActivity := by
  intro s t
  rcases searchPass_cases s with ⟨hl, ht⟩ | ⟨hl, hp, ht⟩ | ⟨hl, hp, -⟩
  · exact Or.inl ⟨hl, ht⟩
  · have hactivity := (busReset_made s.params s.line).activity
    rw [hp] at hactivity
    refine Or.inr (Or.inl ⟨hl, ?_⟩)
    rw [show t = s.passReset.passNoPresence from ht]
    exact ⟨hactivity, rfl, hp, rfl, rfl, rfl, rfl, rfl⟩
  · have hstart := passStart_made s hp
    obtain ⟨xs, hdir, hrom, hpres, hcase⟩ := searchPass_effect s hl hp
    rcases hcase with ⟨hlen, hmade, hld, hldf, hserr, hcrc, hres⟩ | ⟨hlen, hmade, hld, hldf, hserr, hcrc, hres⟩
    · refine Or.inr (Or.inr (Or.inl ⟨hl, xs, hlen, ?_, hdir.follow, hrom.holds, hres, hpres.trans hp, hserr, hcrc,
        hld, hldf⟩))
      rw [hmade.activity_reverse, hstart.activity_reverse]
      exact (List.append_assoc _ _ _).symm
    · refine Or.inr (Or.inr (Or.inr ⟨hl, xs, hlen, ?_, hdir.follow, hrom.holds, ?_, hldf, ?_, hres, hpres.trans hp,
        hserr⟩))
      · rw [hmade.activity_reverse, hstart.activity_reverse]
      · exact hld ▸ isLastZero_lastZeroFrom xs
      · exact hcrc.trans (romValid_eq_decide t.rom)

/-! ### SEARCH_NEXT -/

/-- A command's next state with the completion written out: BUSY clears and the overhead passes (R46(c), R107). -/
theorem exec_eq_overhead (i : Instr) (s : State) :
    exec i s = .next { effect i s with pending := none, line := (effect i s).line.overhead s.params } := by
  rw [exec_eq, ← (effect_outside i s).params]
  rfl

/-- With the enumeration exhausted SEARCH_NEXT writes RESULT only and uses no line (R124). -/
theorem effect_searchNext_exhausted {s : State} (hl : s.ldf = true) : effect .searchNext s = s.passExhausted :=
  searchPass_exhausted hl

/-- Repeated SEARCH_NEXT commands leave an exhausted enumeration exhausted and the line unused (R124). -/
theorem iterate_searchNext_exhausted {s : State} (hl : s.ldf = true) (k : Nat) :
    ((after .searchNext)^[k] s).ldf = true ∧ ((after .searchNext)^[k] s).line.activity = s.line.activity := by
  induction k with
  | zero => exact ⟨hl, rfl⟩
  | succ k ih =>
    obtain ⟨hldf, hactivity⟩ := ih
    rw [Function.iterate_succ_apply', after_eq, effect_searchNext_exhausted hldf]
    exact ⟨hldf, hactivity⟩

/-- Clearing a search state that is clear does nothing. -/
theorem State.clearSearch_clear {s : State} (hl : s.ldf = false) (hld : s.ld = 0) : s.clearSearch = s := by
  rw [State.clearSearch, ← hl, ← hld]

/-- Settles O38: the effect of SEARCH_NEXT is one search pass, which writes RESULT only when it is exhausted; from a
clear search state the pass is the one of SEARCH_FIRST. -/
theorem searchNextContinuesAnEnumeration : Obligations.SearchNextContinuesAnEnumeration := by
  refine ⟨rfl, exec_eq_overhead .searchNext, fun s hl => ⟨?exhausted, fun k => ?repeated⟩, fun s hl hld => ?asFirst⟩
  case exhausted => rw [exec_eq, effect_searchNext_exhausted hl]; rfl
  case repeated =>
    obtain ⟨hldf, hactivity⟩ := iterate_searchNext_exhausted hl (k + 1)
    refine ⟨?_, hldf, hactivity⟩
    rw [Function.iterate_succ_apply', after_eq, effect_searchNext_exhausted (iterate_searchNext_exhausted hl k).1]
    rfl
  case asFirst => rw [exec_eq, exec_eq, effect, effect, State.clearSearch_clear hl hld]

/-! ### The invariants of the search state -/

/-- What a pass leaves of the search state: nothing changed but RESULT, or cleared with RESULT = 0, or the highest
discrepancy resolved as 0 with RESULT = 1 (R135). -/
theorem searchPass_searchState (s : State) :
    let t := searchPass s
    (s.ldf = true ∧ t.result = false ∧ t.ld = s.ld ∧ t.ldf = s.ldf) ∨
    (s.ldf = false ∧ t.result = false ∧ t.ld = 0 ∧ t.ldf = false) ∨
    (s.ldf = false ∧ t.result = true ∧ t.serr = false ∧ t.ld ≤ 64 ∧ (t.ldf = true → t.ld = 0)) := by
  intro t
  rcases searchPass_cases s with ⟨hl, ht⟩ | ⟨hl, -, ht⟩ | ⟨hl, hp, -⟩
  · refine Or.inl ⟨hl, ?_⟩
    rw [show t = s.passExhausted from ht]
    exact ⟨rfl, rfl, rfl⟩
  · refine Or.inr (Or.inl ⟨hl, ?_⟩)
    rw [show t = s.passReset.passNoPresence from ht]
    exact ⟨rfl, rfl, rfl⟩
  · obtain ⟨xs, -, -, -, hcase⟩ := searchPass_effect s hl hp
    rcases hcase with ⟨-, -, hld, hldf, -, -, hres⟩ | ⟨hlen, -, hld, hldf, hserr, -, hres⟩
    · exact Or.inr (Or.inl ⟨hl, hres, hld, hldf⟩)
    · obtain ⟨-, -, -, hbound⟩ := lastZeroFrom_spec 1 0 xs Nat.one_pos
      refine Or.inr (Or.inr ⟨hl, hres, hserr, ?_, fun h => ?_⟩)
      · rw [show t.ld = lastZeroFrom 1 0 xs from hld]
        exact Nat.le_of_lt_succ (by simpa [hlen, romBits, Nat.add_comm] using hbound)
      · exact beq_iff_eq.mp (hldf.symm.trans h)

/-- The invariants of R137 over one search pass. -/
theorem searchPass_invariants (s : State) :
    let t := searchPass s
    (s.ld ≤ 64 → t.ld ≤ 64) ∧ ((s.ldf = true → s.ld = 0) → t.ldf = true → t.ld = 0) ∧
    (s.ldf = false → t.result = false → t.ld = 0 ∧ t.ldf = false) ∧ (t.serr = true → t.result = false) := by
  intro t
  rcases searchPass_searchState s with ⟨hl, hres, hld, hldf⟩ | ⟨-, hres, hld, hldf⟩ | ⟨-, hres, hserr, hld, hldf⟩
  · exact ⟨hld ▸ id, hld ▸ hldf ▸ id, fun h => by simp [h] at hl, fun _ => hres⟩
  · exact ⟨fun _ => hld ▸ Nat.zero_le 64, fun _ _ => hld, fun _ _ => ⟨hld, hldf⟩, fun _ => hres⟩
  · exact ⟨fun _ => hld, fun _ => hldf, fun _ h => absurd (hres.symm.trans h) nofun,
      fun h => absurd (hserr.symm.trans h) nofun⟩

/-- Settles O39: a search command is one pass, SEARCH_FIRST from a clear search state, and no other command writes the
search state (R40). -/
theorem everyCommandKeepsTheSearchInvariants : Obligations.EveryCommandKeepsTheSearchInvariants := by
  intro i s t ht
  obtain rfl := exec_next ht
  by_cases hfirst : i = .searchFirst
  · subst hfirst
    obtain ⟨hld, hldf, hfailed, hserr⟩ := searchPass_invariants s.clearSearch
    exact ⟨fun _ => hld (Nat.zero_le 64), fun _ => hldf fun _ => rfl, fun _ => hfailed rfl, fun _ => hserr⟩
  by_cases hnext : i = .searchNext
  · subst hnext
    obtain ⟨hld, hldf, hfailed, hserr⟩ := searchPass_invariants s
    exact ⟨hld, hldf, fun hi => hfailed (by simpa using hi), fun _ => hserr⟩
  · obtain ⟨hld, hldf, -⟩ := effect_searchState hfirst hnext s
    exact ⟨hld ▸ id, hld ▸ hldf ▸ id, by simp [hfirst, hnext], by simp [hfirst, hnext]⟩

end Sys2Proof.Machine
end

section
/-! The order of an enumeration (42_rom_search.md R139): `romKey` compares codes at the first position where they differ. A
complete pass that starts from a clear search state finds the first code, and one that starts from a code found and its
highest discrepancy resolved as 0 finds the next code. So the states of an enumeration stand at the codes in tree order. -/

namespace Sys2Proof.Machine

/-! ### Tree order -/

/-- Codes `a` and `b` first differ at position `n`, where `a` has 0 and `b` has 1. -/
structure BranchesAt (n : Nat) (a b : RomCode) : Prop where
  pos : 1 ≤ n
  le : n ≤ 64
  agree : AgreeBelow n a b
  left : romBit a n = false
  right : romBit b n = true

theorem AgreeBelow.symm {n : Nat} {a b : RomCode} (h : AgreeBelow n a b) : AgreeBelow n b a :=
  fun m h1 h2 => (h m h1 h2).symm

theorem AgreeBelow.mono {m n : Nat} {a b : RomCode} (h : AgreeBelow n a b) (hmn : m ≤ n) : AgreeBelow m a b :=
  fun k h1 h2 => h k h1 (Nat.lt_of_lt_of_le h2 hmn)

/-- `key(r)` lists the 64 positions in order (R139). -/
theorem romKey_getElem (r : RomCode) {i : Nat} (h : i < (romKey r).length) : (romKey r)[i] = romBit r (i + 1) := by
  simp [romKey]

@[simp] theorem romKey_length (r : RomCode) : (romKey r).length = 64 := by simp [romKey]

/-- Tree order is decided at the first position where two codes differ (R139). -/
theorem romKey_lt_iff {a b : RomCode} : romKey a < romKey b ↔ ∃ n, BranchesAt n a b := by
  simp only [List.lt_iff_exists, romKey_length, lt_self_iff_false, and_false, false_or, romKey_getElem, Bool.lt_iff]
  constructor
  · rintro ⟨i, hi, -, hagree, hl, hr⟩
    refine ⟨i + 1, Nat.succ_pos i, hi, fun m h1 h2 => ?_, hl, hr⟩
    simpa [Nat.sub_add_cancel h1] using hagree (m - 1) (by omega)
  · rintro ⟨n, hpos, hle, hagree, hl, hr⟩
    refine ⟨n - 1, by omega, by omega, fun j hj => hagree (j + 1) (by omega) (by omega), ?_⟩
    rw [Nat.sub_add_cancel hpos]
    exact ⟨hl, hr⟩

/-- A code is determined by its key (R10). -/
theorem romKey_injective : Function.Injective romKey := by
  intro a b h
  have hbits : ∀ i < 64, romBit a (i + 1) = romBit b (i + 1) := by simpa [romKey] using h
  refine romCode_ext fun n h1 h64 => ?_
  simpa [Nat.sub_add_cancel h1] using hbits (n - 1) (by omega)

/-- Two codes that branch among the codes `rs` are a discrepancy on the way to either (R165). -/
theorem BranchesAt.disagree_left {rs : List RomCode} {n : Nat} {a b : RomCode} (h : BranchesAt n a b) (ha : a ∈ rs)
    (hb : b ∈ rs) : DisagreeAt rs a n :=
  ⟨⟨b, hb, h.agree.symm, h.right⟩, ⟨a, ha, fun _ _ _ => rfl, h.left⟩⟩

theorem BranchesAt.disagree_right {rs : List RomCode} {n : Nat} {a b : RomCode} (h : BranchesAt n a b) (ha : a ∈ rs)
    (hb : b ∈ rs) : DisagreeAt rs b n :=
  ⟨⟨b, hb, fun _ _ _ => rfl, h.right⟩, ⟨a, ha, h.agree, h.left⟩⟩

/-! ### What a pass finds, in tree order -/

section

variable {rs : List RomCode} {ld z z' : Nat} {old t t' r : RomCode}

/-- A code that comes after the one found branches from it at `z` or below (R130). -/
theorem PassFinds.branch_le_lastZero {n : Nat} (h : PassFinds rs ld old t z) (hr : r ∈ rs)
    (hb : BranchesAt n t r) : n ≤ z :=
  h.highest n hb.pos hb.le (hb.disagree_left h.mem hr) hb.left

/-- A code that comes before the one found branches from it at LD, or below it where the old code has a 1 (R126). -/
theorem PassFinds.branch_of_before {n : Nat} (h : PassFinds rs ld old t z) (hr : r ∈ rs)
    (hb : BranchesAt n r t) : n < ld ∧ romBit old n = true ∨ n = ld := by
  have hdir := h.direction n hb.pos hb.le (hb.disagree_right hr h.mem)
  rw [hb.right] at hdir
  by_cases hlt : n < ld
  · exact Or.inl ⟨hlt, by rw [if_pos hlt] at hdir; exact hdir.symm⟩
  · exact Or.inr (by simpa [hlt] using hdir.symm)

/-- A pass from a clear search state finds the first code in tree order. -/
theorem PassFinds.first (h : PassFinds rs 0 old t z) (hr : r ∈ rs) : ¬ romKey r < romKey t := by
  rw [romKey_lt_iff]
  rintro ⟨n, hb⟩
  have hpos := hb.pos
  rcases h.branch_of_before hr hb with ⟨hlt, -⟩ | heq <;> omega

/-- With no discrepancy resolved as 0, no code comes after the one found (R131). -/
theorem PassFinds.last (h : PassFinds rs ld old t 0) (hr : r ∈ rs) : ¬ romKey t < romKey r := by
  rw [romKey_lt_iff]
  rintro ⟨n, hb⟩
  have hpos := hb.pos
  have hle := h.branch_le_lastZero hr hb
  omega

/-- The pass after the one that found `t` replays `t` below the highest discrepancy resolved as 0 (R126). -/
theorem PassFinds.next_agree (h : PassFinds rs ld old t z) (h' : PassFinds rs z t t' z') (hz : z ≤ 64) :
    AgreeBelow z t' t := by
  intro m
  induction m using Nat.strong_induction_on with
  | _ m ih =>
    intro h1 h2
    have hagree : AgreeBelow m t' t := fun k hk1 hk2 => ih k hk2 hk1 (by omega)
    by_cases hd : DisagreeAt rs t' m
    · rw [h'.direction m h1 (by omega) hd, if_pos h2]
    · by_contra hne
      refine hd ?_
      cases hb : romBit t' m <;> simp only [hb] at hne
      · have : BranchesAt m t' t := ⟨h1, by omega, hagree, hb, by simpa using hne⟩
        exact this.disagree_left h'.mem h.mem
      · have : BranchesAt m t t' := ⟨h1, by omega, hagree.symm, by simpa using hne, hb⟩
        exact this.disagree_right h.mem h'.mem

/-- The pass after the one that found `t` turns to 1 at the highest discrepancy resolved as 0 (R126). -/
theorem PassFinds.next_branches (h : PassFinds rs ld old t z) (h' : PassFinds rs z t t' z') (hz : z ≠ 0) :
    BranchesAt z t t' := by
  obtain h0 | ⟨hz1, hz64, hdis, hbit⟩ := h.lastZero
  · exact absurd h0 hz
  have hagree := h.next_agree h' hz64
  refine ⟨hz1, hz64, hagree.symm, hbit, ?_⟩
  have hdir := h'.direction z hz1 hz64 ((DisagreeAt.congr hagree).mpr hdis)
  simpa using hdir

/-- The pass after the one that found `t` finds no code later than the next one (R139). -/
theorem PassFinds.next_least (h : PassFinds rs ld old t z) (h' : PassFinds rs z t t' z') (hz : z ≠ 0)
    (hr : r ∈ rs) (hlt : romKey t < romKey r) : ¬ romKey r < romKey t' := by
  rw [romKey_lt_iff]
  rintro ⟨n, hb⟩
  have hbranch := h.next_branches h' hz
  rcases h'.branch_of_before hr hb with ⟨hn, hone⟩ | rfl
  · -- `r` leaves the way of `t` to the 0 side, so it comes before `t`
    have hrt : BranchesAt n r t := ⟨hb.pos, hb.le, (hbranch.agree.mono hn.le).congr.mpr hb.agree, hb.left, hone⟩
    exact lt_asymm hlt (romKey_lt_iff.mpr ⟨n, hrt⟩)
  · -- `r` has a 0 at `n` like `t`, so it branches from `t` above the highest discrepancy resolved as 0
    obtain ⟨m, hm⟩ := romKey_lt_iff.mp hlt
    have hle := h.branch_le_lastZero hr hm
    rcases hle.lt_or_eq with hmn | rfl
    · have hsame : romBit r m = romBit t m := (hb.agree m hm.pos hmn).trans (hbranch.agree m hm.pos hmn).symm
      exact absurd (hm.right.symm.trans (hsame.trans hm.left)) nofun
    · exact absurd (hm.right.symm.trans hb.left) nofun

/-- A discrepancy resolved as 0 leaves a code after the one found (R131). -/
theorem PassFinds.exists_after (h : PassFinds rs ld old t z) (hz : z ≠ 0) : ∃ r ∈ rs, romKey t < romKey r := by
  obtain h0 | ⟨hz1, hz64, ⟨⟨r, hr, hagree, hone⟩, -⟩, hbit⟩ := h.lastZero
  · exact absurd h0 hz
  · exact ⟨r, hr, romKey_lt_iff.mpr ⟨z, hz1, hz64, hagree.symm, hbit, hone⟩⟩

end

/-! ### The codes still to come -/

/-- The codes `L` are in tree order (R139). -/
abbrev InTreeOrder (L : List RomCode) : Prop := L.Pairwise (fun a b => romKey a < romKey b)

/-- Different codes can be put in tree order. -/
theorem exists_inTreeOrder {rs : List RomCode} (h : rs.Nodup) : ∃ L, L.Perm rs ∧ InTreeOrder L := by
  let L := rs.mergeSort (fun a b => decide (romKey a ≤ romKey b))
  have hperm : L.Perm rs := List.mergeSort_perm rs _
  have hle : L.Pairwise (fun a b => romKey a ≤ romKey b) := by
    simpa using List.pairwise_mergeSort (le := fun a b => decide (romKey a ≤ romKey b))
      (fun a b c => by simpa using le_trans) (fun a b => by simpa using le_total (romKey a) (romKey b)) rs
  have hne : L.Pairwise (fun a b => a ≠ b) := hperm.nodup_iff.mpr h
  exact ⟨L, hperm, hle.imp₂ (fun a b hab hab' => lt_of_le_of_ne hab (romKey_injective.ne hab')) hne⟩

/-- `L` lists the codes of `rs` after `t`, in tree order. -/
structure CodesAfter (rs : List RomCode) (t : RomCode) (L : List RomCode) : Prop where
  ordered : InTreeOrder L
  mem_iff : ∀ r, r ∈ L ↔ r ∈ rs ∧ romKey t < romKey r

/-- In a list in tree order, a code with no earlier one than the head before it is the head. -/
theorem InTreeOrder.eq_head {r t : RomCode} {L : List RomCode} (h : InTreeOrder (r :: L)) (ht : t ∈ r :: L)
    (hleast : ¬ romKey r < romKey t) : t = r := by
  rcases List.mem_cons.mp ht with rfl | ht
  · rfl
  · exact absurd (List.rel_of_pairwise_cons h ht) hleast

/-- The rest of a list in tree order that holds the codes after its head. -/
theorem InTreeOrder.codesAfter_head {rs L : List RomCode} {r : RomCode} (h : InTreeOrder (r :: L))
    (hmem : ∀ m, romKey r < romKey m → (m ∈ r :: L ↔ m ∈ rs)) : CodesAfter rs r L := by
  refine ⟨h.of_cons, fun m => ⟨fun hm => ?_, fun ⟨hm, hlt⟩ => ?_⟩⟩
  · have hlt := List.rel_of_pairwise_cons h hm
    exact ⟨(hmem m hlt).mp (List.mem_cons_of_mem r hm), hlt⟩
  · refine List.mem_of_ne_of_mem ?_ ((hmem m hlt).mpr hm)
    rintro rfl
    exact lt_irrefl _ hlt

/-! ### The states of an enumeration -/

/-- The state after a search command that found a code of the devices `rs`, started with `ld` and ROM `old`. -/
structure FoundCode (rs : List RomCode) (ld : Nat) (old : RomCode) (s : State) : Prop where
  wf : s.params.wf = true
  bus : ∃ ds, s.line.env = .bus ds ∧ romsOf ds = rs
  finds : PassFinds rs ld old s.rom s.ld
  result : s.result = true
  serr : s.serr = false
  crcOk : s.crcOk = romValid s.rom
  ldf : s.ldf = (s.ld == 0)

/-- A completed pass on a bus of conforming devices has found a code (R166). -/
theorem searchPass_foundCode {s : State} {ds : List Device} (hp : s.params.wf = true) (h : s.line.env = .bus ds)
    (hne : ds ≠ []) (hl : s.ldf = false) : FoundCode (romsOf ds) s.ld s.rom (searchPass s).complete := by
  obtain ⟨hresult, hserr, -, hfinds, hbus, hldf, hcrc⟩ := searchPass_bus hp h hne hl
  have hparams : (searchPass s).complete.params = s.params := (searchPass_frame s).outside.params
  exact ⟨hparams ▸ hp, ⟨_, hbus, by simp [romsOf, Function.comp_def]⟩, hfinds, hresult, hserr, hcrc, hldf⟩

/-- SEARCH_FIRST finds a code from a clear search state (R121). -/
theorem after_searchFirst_foundCode {s : State} {ds : List Device} (hp : s.params.wf = true)
    (h : s.line.env = .bus ds) (hne : ds ≠ []) : FoundCode (romsOf ds) 0 s.rom (after .searchFirst s) := by
  rw [after_eq]
  exact searchPass_foundCode (s := s.clearSearch) hp h hne rfl

/-- SEARCH_NEXT finds a code where the last pass left a discrepancy resolved as 0 (R122, R131). -/
theorem FoundCode.searchNext {rs : List RomCode} {ld : Nat} {old : RomCode} {s : State} (h : FoundCode rs ld old s)
    (hld : s.ld ≠ 0) : FoundCode rs s.ld s.rom (after .searchNext s) := by
  obtain ⟨ds, hbus, rfl⟩ := h.bus
  have hne : ds ≠ [] := by
    rintro rfl
    exact absurd h.finds.mem (by simp [romsOf])
  rw [after_eq]
  exact searchPass_foundCode h.wf hbus hne (by rw [h.ldf, beq_false_of_ne hld])

/-- What R139 asks of the states `run.1` of an enumeration, for the codes `L`, and of the state after them. -/
structure Enumerates (L : List RomCode) (run : List State × State) : Prop where
  roms : run.1.map (fun t => t.rom) = L
  found : ∀ t ∈ run.1, t.result = true ∧ t.serr = false ∧ t.crcOk = romValid t.rom
  notLast : ∀ t ∈ run.1.dropLast, t.ldf = false
  last : ∀ t ∈ run.1.getLast?, t.ldf = true
  exhausted : run.2.result = false ∧ run.2.ldf = true

/-- The enumeration that ends at `s`. -/
theorem FoundCode.enumerates_last {rs : List RomCode} {ld : Nat} {old : RomCode} {s u : State}
    (h : FoundCode rs ld old s) (hldf : s.ldf = true) (hu : u.result = false ∧ u.ldf = true) :
    Enumerates [s.rom] ([s], u) where
  roms := rfl
  found := by simp [h.result, h.serr, h.crcOk]
  notLast := by simp
  last := by simp [hldf]
  exhausted := hu

/-- The enumeration that goes on from `s`. -/
theorem FoundCode.enumerates_cons {rs L : List RomCode} {ld : Nat} {old : RomCode} {s t u : State} {ts : List State}
    (h : FoundCode rs ld old s) (hldf : s.ldf = false) (ht : Enumerates L (t :: ts, u)) :
    Enumerates (s.rom :: L) (s :: t :: ts, u) where
  roms := congrArg (s.rom :: ·) ht.roms
  found := List.forall_mem_cons.mpr ⟨⟨h.result, h.serr, h.crcOk⟩, ht.found⟩
  notLast := List.forall_mem_cons.mpr ⟨hldf, ht.notLast⟩
  last := ht.last
  exhausted := ht.exhausted

/-- The host goes on where SEARCH_NEXT returned RESULT = 1 (R139). -/
theorem searchNextRun_goesOn (k : Nat) {s : State} (h : (after .searchNext s).result = true) :
    searchNextRun (k + 1) s = (after .searchNext s :: (searchNextRun k (after .searchNext s)).1,
      (searchNextRun k (after .searchNext s)).2) :=
  if_pos h

/-- The host stops where SEARCH_NEXT returned RESULT = 0 (R139). -/
theorem searchNextRun_stops (k : Nat) {s : State} (h : (after .searchNext s).result = false) :
    searchNextRun (k + 1) s = ([], after .searchNext s) :=
  if_neg (by simp [h])

/-- From a found code the codes after it are returned in order, and then RESULT = 0, by induction over these codes. -/
theorem searchNextRun_enumerates {rs : List RomCode} (L : List RomCode) {k ld : Nat} {old : RomCode} {s : State}
    (hs : FoundCode rs ld old s) (hL : CodesAfter rs s.rom L) (hk : L.length < k) :
    Enumerates (s.rom :: L) (s :: (searchNextRun k s).1, (searchNextRun k s).2) := by
  induction L generalizing k ld old s with
  | nil =>
    obtain ⟨k, rfl⟩ := Nat.exists_eq_add_one_of_ne_zero (Nat.ne_zero_of_lt hk)
    have hld : s.ld = 0 := by
      by_contra hne
      obtain ⟨r, hr, hlt⟩ := hs.finds.exists_after hne
      exact absurd ((hL.mem_iff r).mpr ⟨hr, hlt⟩) List.not_mem_nil
    have hldf : s.ldf = true := by rw [hs.ldf, hld]; rfl
    have hnext : after .searchNext s = s.passExhausted.complete := by rw [after_eq, effect_searchNext_exhausted hldf]
    rw [searchNextRun_stops k (by rw [hnext]; rfl), hnext]
    exact hs.enumerates_last hldf ⟨rfl, hldf⟩
  | cons r L ih =>
    obtain ⟨k, rfl⟩ := Nat.exists_eq_add_one_of_ne_zero (Nat.ne_zero_of_lt hk)
    obtain ⟨hr, hlt⟩ := (hL.mem_iff r).mp List.mem_cons_self
    have hld : s.ld ≠ 0 := fun h0 => PassFinds.last (h0 ▸ hs.finds) hr hlt
    have ht := hs.searchNext hld
    have hafter : romKey s.rom < romKey (after .searchNext s).rom :=
      romKey_lt_iff.mpr ⟨_, hs.finds.next_branches ht.finds hld⟩
    have hrom : (after .searchNext s).rom = r :=
      hL.ordered.eq_head ((hL.mem_iff _).mpr ⟨ht.finds.mem, hafter⟩) (hs.finds.next_least ht.finds hld hr hlt)
    have hrest : CodesAfter rs r L := hL.ordered.codesAfter_head fun m hm => by
      simp [hL.mem_iff, hlt.trans hm]
    have hrun := ih ht (hrom ▸ hrest) (Nat.lt_of_succ_lt_succ hk)
    rw [searchNextRun_goesOn k ht.result]
    exact hs.enumerates_cons (by rw [hs.ldf, beq_false_of_ne hld]) (hrom ▸ hrun)

/-- After a SEARCH_FIRST that returned RESULT = 1 the host goes on with SEARCH_NEXT (R139). -/
theorem enumeration_goesOn (k : Nat) {s : State} (h : (after .searchFirst s).result = true) :
    enumeration k s = (after .searchFirst s :: (searchNextRun k (after .searchFirst s)).1,
      (searchNextRun k (after .searchFirst s)).2) :=
  if_pos h

/-- A complete enumeration of different codes returns them in tree order (R139). -/
theorem enumeration_enumerates {s : State} {ds : List Device} {L : List RomCode} (hp : s.params.wf = true)
    (h : s.line.env = .bus ds) (hne : ds ≠ []) (hperm : L.Perm (romsOf ds)) (hL : InTreeOrder L) :
    Enumerates L (enumeration ds.length s) := by
  have ht := after_searchFirst_foundCode hp h hne
  have hlen : L.length = ds.length := by rw [hperm.length_eq, romsOf, List.length_map]
  rw [enumeration_goesOn ds.length ht.result]
  cases L with
  | nil => exact absurd (List.length_eq_zero_iff.mp hlen.symm) hne
  | cons r L =>
    have hr : r ∈ romsOf ds := hperm.subset List.mem_cons_self
    have hrom : (after .searchFirst s).rom = r := hL.eq_head (hperm.symm.subset ht.finds.mem) (ht.finds.first hr)
    have hrest : CodesAfter (romsOf ds) r L := hL.codesAfter_head fun _ _ => hperm.mem_iff
    have hk : L.length < ds.length := by rw [← hlen, List.length_cons]; exact Nat.lt_succ_self _
    exact hrom ▸ searchNextRun_enumerates L ht (hrom ▸ hrest) hk

/-- Settles O45: the first pass finds the first code in tree order, each further pass the next one, as it turns to 1 at
the highest discrepancy resolved as 0, and with no such discrepancy left LDF is 1 and no code is left. -/
theorem enumerationFindsEveryDeviceInTreeOrder : Obligations.EnumerationFindsEveryDeviceInTreeOrder := by
  intro s ds hp h hne hnodup
  obtain ⟨L, hperm, hL⟩ := exists_inTreeOrder hnodup
  obtain ⟨hroms, hfound, hnotLast, hlast, hresult, hldf⟩ := enumeration_enumerates hp h hne hperm hL
  refine ⟨hroms ▸ hperm, ?ordered, hfound, hnotLast, hlast, hresult, hldf⟩
  case ordered =>
    rw [← hroms] at hL
    simpa [List.pairwise_map] using hL

end Sys2Proof.Machine
end

section
/-! The CRC-8 validator (43_crc8.md): the CRC step as a linear bijection of the exclusive or of accumulator and byte
(R150), frames and ROM codes by their whole CRC (R151, R154), and the commands CRC_CLEAR and CRC_UPDATE (R147, R148,
R152). -/

namespace Sys2Proof.Machine

/-! ### The CRC step -/

/-- A mixed bit equal to the lowest bit of the accumulator feeds nothing back (R145). -/
theorem crcBit_lsb (c : Byte) : crcBit c (c.getLsbD 0) = c >>> 1 := by
  simp [crcBit]

/-- Once the accumulator has taken `i` of its own bits, the next one shifts it once more. -/
theorem crcBit_shifted (c : Byte) (i : Nat) : crcBit (c >>> i) (c.getLsbD i) = c >>> (i + 1) := by
  simpa [BitVec.shiftRight_add] using crcBit_lsb (c >>> i)

/-- Folding the byte that the accumulator holds shifts all of it out (R148, R150). -/
theorem crc8Step_self (c : Byte) : crc8Step c c = 0x00 := by
  simp only [crc8Step, bitIndices, List.foldl, crcBit_lsb, crcBit_shifted]
  simp [BitVec.ushiftRight_eq_zero]

/-- The example of R148. -/
theorem crc8Step_seed_one : crc8Step 0x00 0x01 = 0x5E := rfl

/-- The step depends on the exclusive or of accumulator and byte only (R150). -/
theorem crc8Step_eq_mixed (c b : Byte) : crc8Step c b = crc8Step (c ^^^ b) 0x00 := by
  have h := crc8Step_xor (c ^^^ b) b 0x00 b
  simpa [BitVec.xor_assoc, crc8Step_self] using h

/-- With a 0 mixed in only 0 shifts to 0: a 1 shifted out sets bit 7, the highest bit of the feedback 0x8C (R150). -/
theorem crcBit_false_eq_zero {c : Byte} : crcBit c false = 0#8 ↔ c = 0#8 := by
  refine ⟨fun h => ?_, by rintro rfl; rfl⟩
  unfold crcBit at h
  split at h
  · have h7 := congrArg (·.getLsbD 7) h
    simp at h7
  · rename_i h0
    apply BitVec.eq_of_getLsbD_eq
    rintro (_ | i) hi
    · simpa using h0
    · have hbit := congrArg (·.getLsbD i) h
      simpa [Nat.add_comm] using hbit

/-- The step is 0 exactly when the byte is the accumulator (R150). -/
theorem crc8Step_eq_zero {c b : Byte} : crc8Step c b = 0x00 ↔ b = c := by
  have hshift : ∀ x : Byte, crc8Step x 0x00 = 0x00 ↔ x = 0x00 := fun x => by
    simp [crc8Step, bitIndices, crcBit_false_eq_zero]
  rw [crc8Step_eq_mixed, hshift]
  exact BitVec.xor_eq_zero_iff.trans eq_comm

/-- Different accumulators stay different, whatever byte is folded in (R150). -/
theorem crc8Step_left_injective (b : Byte) : Function.Injective (crc8Step · b) := by
  intro x y h
  have hzero : crc8Step (x ^^^ y) 0x00 = 0x00 := by
    have hxor := crc8Step_xor x y b b
    rw [BitVec.xor_self] at hxor
    exact hxor.trans (BitVec.xor_eq_zero_iff.mpr h)
  exact BitVec.xor_eq_zero_iff.mp (crc8Step_eq_zero.mp hzero).symm

/-- Different bytes lead to different accumulators (R150). -/
theorem crc8Step_right_injective (c : Byte) : Function.Injective (crc8Step c) := by
  intro x y h
  rw [crc8Step_eq_mixed, crc8Step_eq_mixed c y] at h
  exact (BitVec.xor_right_inj c).mp (crc8Step_left_injective 0x00 h)

/-- Settles O50: a 1 shifted out is fed back into bit 7, so the linear map of one byte has kernel 0. -/
theorem crcStepIsLinear : Obligations.CrcStepIsLinear := by
  refine ⟨crc8Step_eq_mixed, ?linear, crc8Step_self 0x00, ?bijective, fun _ _ => crc8Step_eq_zero⟩
  case linear => exact fun x y => crc8Step_xor x y 0x00 0x00
  case bijective => exact Finite.injective_iff_bijective.mp (crc8Step_left_injective 0x00)

/-! ### Frames and ROM codes -/

/-- The CRC of a frame folds its last byte into the CRC of the bytes before it (R146). -/
theorem crc8_concat (bs : List Byte) (b : Byte) : crc8 (bs ++ [b]) = crc8Step (crc8 bs) b := by
  simp [crc8]

/-- The CRC with its check byte folded in is 0 exactly when the check byte is right (R151). -/
theorem crc8_concat_eq_zero {bs : List Byte} {b : Byte} : crc8 (bs ++ [b]) = 0x00 ↔ crc8 bs = b := by
  rw [crc8_concat, crc8Step_eq_zero, eq_comm]

/-- A frame is valid exactly when its last byte is the CRC of the bytes before it (R151). -/
theorem frameValid_concat {bs : List Byte} {b : Byte} : frameValid (bs ++ [b]) = true ↔ crc8 bs = b := by
  rw [frameValid, List.dropLast_concat, List.getLastD_concat, beq_iff_eq]

/-- A frame that holds a byte is valid exactly when its whole CRC is 0 (R151). -/
theorem frameValid_iff {bs : List Byte} (h : bs ≠ []) : frameValid bs = true ↔ crc8 bs = 0x00 := by
  obtain ⟨xs, b, rfl⟩ := bs.eq_nil_or_concat'.resolve_left h
  rw [frameValid_concat, crc8_concat_eq_zero]

/-- Settles O51: folding in the last byte gives 0 exactly when that byte is the CRC of the bytes before it. -/
theorem validFrameHasZeroCrc : Obligations.ValidFrameHasZeroCrc := by
  intro data hlen
  have hne : data ≠ [] := by rintro rfl; simp at hlen
  refine ⟨?checkByte, frameValid_iff hne⟩
  obtain ⟨bs, b, rfl⟩ := data.eq_nil_or_concat'.resolve_left hne
  rw [frameValid_concat, List.dropLast_concat, List.getLast?_concat, Option.some_inj]

/-- A ROM code is valid exactly when its whole CRC is 0 (R151, R153). -/
theorem romValid_iff (r : RomCode) : romValid r = true ↔ crc8 r.toList = 0x00 := by
  have hsplit : r.toList.take 7 ++ [r[7]] = r.toList := by
    have h := List.take_concat_get' r.toList 7 (by simp)
    simpa [List.take_of_length_le] using h
  rw [romValid, beq_iff_eq, ← crc8_concat_eq_zero, hsplit]

/-- The bytes still to come keep different accumulators different (R150). -/
theorem foldl_crc8Step_injective (bs : List Byte) : Function.Injective (bs.foldl crc8Step) := by
  induction bs with
  | nil => exact Function.injective_id
  | cons b bs ih => exact ih.comp (crc8Step_left_injective b)

/-- A change of one byte that leaves the CRC as it was is no change. -/
theorem set_eq_of_foldl_crc8Step_eq {c b : Byte} {bs : List Byte} {k : Nat}
    (h : (bs.set k b).foldl crc8Step c = bs.foldl crc8Step c) : bs.set k b = bs := by
  induction bs generalizing c k with
  | nil => rfl
  | cons x xs ih =>
    cases k with
    | zero => rw [List.set_cons_zero, crc8Step_right_injective c (foldl_crc8Step_injective xs h)]
    | succ k => rw [List.set_cons_succ, ih h]

/-- A bit written into a valid ROM code that leaves it valid is the bit that was there (R154). -/
theorem romBit_eq_of_romValid_set {r : RomCode} {n : Nat} {b : Bool} (hn : 1 ≤ n ∧ n ≤ 64)
    (hr : romValid r = true) (hset : romValid (setRomBit r n b) = true) : romBit r n = b := by
  rw [romValid_iff] at hr hset
  have hlist : (setRomBit r n b).toList = r.toList := by
    rw [setRomBit, Vector.toList_setIfInBounds] at hset ⊢
    exact set_eq_of_foldl_crc8Step_eq (hset.trans hr.symm)
  have hsame : setRomBit r n b = r := Vector.toList_inj.mp hlist
  have hwritten := romBit_setRomBit r hn hn b
  rwa [hsame, if_pos rfl] at hwritten

/-- Settles O53: a changed byte changes the accumulator and no later byte undoes it; the codes of zeros and of zeros
followed by 01 5E are both valid. -/
theorem singleBitErrorsAreDetected : Obligations.SingleBitErrorsAreDetected := by
  have hzero : romValid (Vector.replicate 8 0x00) = true := by
    simp [romValid_iff, crc8, crc8Step_self]
  have hpair : romValid #v[0x00, 0x00, 0x00, 0x00, 0x00, 0x00, 0x01, 0x5E] = true := by
    simpa [romValid_iff, crc8, crc8Step_self] using crc8Step_eq_zero.mpr crc8Step_seed_one.symm
  refine ⟨?singleBit, ⟨_, _, by decide, hzero, hpair⟩, hzero⟩
  intro r n hr h1 h64
  refine Bool.eq_false_iff.mpr fun hset => ?_
  have hbit := romBit_eq_of_romValid_set ⟨h1, h64⟩ hr hset
  exact absurd hbit.symm (Bool.not_ne_self _)

/-! ### The commands -/

/-- Settles O48: the effect of CRC_CLEAR is the seed, and then the command completes. -/
theorem crcClearSeedsTheAccumulator : Obligations.CrcClearSeedsTheAccumulator :=
  ⟨rfl, fun s => exec_eq .crcClear s⟩

/-- With CRC_UPDATE pending the effect is the latched byte folded in (R148). -/
theorem effect_crcUpdate {s : State} {v : Byte} (hp : s.pending = some { op := .crcUpdate, operand := v }) :
    effect .crcUpdate s = s.setCrc (crc8Step s.crc v) := by
  rw [effect, State.operand_pending hp]

/-- Settles O49: the effect of CRC_UPDATE is the latched byte folded in, and then the command completes. -/
theorem crcUpdateFoldsTheOperand : Obligations.CrcUpdateFoldsTheOperand := by
  refine ⟨rfl, ?command, crc8Step_self 0x00, crc8Step_seed_one, crc8Step_self⟩
  intro s v hp
  rw [exec_eq, effect_crcUpdate hp]
  rfl

/-- The block is idle out of reset, with `c` in the accumulator and RESULT saying whether it is 0. -/
structure IdleWithCrc (c : Byte) (s : State) : Prop where
  resetPin : s.resetPin = false
  pending : s.pending = none
  crc : s.crc = c
  result : s.result = (c == 0x00)

/-- CRC_CLEAR leaves the seed in the accumulator (R147). -/
theorem idleWithCrc_after_crcClear {s : State} (hr : s.resetPin = false) :
    IdleWithCrc 0x00 (after .crcClear s) := by
  rw [after_eq]
  exact ⟨hr, rfl, rfl, rfl⟩

/-- The host's writes of DATA and of CRC_UPDATE, while idle, make CRC_UPDATE pending with that byte (R69, R74). -/
theorem hostWrite_data_crcUpdate {s : State} (hr : s.resetPin = false) (hp : s.pending = none) (b : Byte) :
    (s.hostWrite .data b).hostWrite .cmd 0x09 = State.accept { s with data := b } .crcUpdate := by
  rw [State.hostWrite_idle hr hp]
  exact (State.hostWrite_idle (s := { s with data := b }) hr hp .cmd 0x09).trans
    (State.writeCmd_legal (decode_encode .crcUpdate))

/-- One byte through the host's CRC_UPDATE is one step of the accumulator (R148). -/
theorem IdleWithCrc.hostCrcUpdate {c : Byte} {s : State} (h : IdleWithCrc c s) (b : Byte) :
    IdleWithCrc (crc8Step c b) (hostCrcUpdate s b) := by
  rw [Machine.hostCrcUpdate, hostWrite_data_crcUpdate h.resetPin h.pending, after_eq, effect_crcUpdate rfl, ← h.crc]
  exact ⟨h.resetPin, rfl, rfl, rfl⟩

/-- The bytes through the host's CRC_UPDATE are the fold of the accumulator over them (R146). -/
theorem IdleWithCrc.foldl_hostCrcUpdate {c : Byte} {s : State} (h : IdleWithCrc c s) (bs : List Byte) :
    IdleWithCrc (bs.foldl crc8Step c) (bs.foldl Machine.hostCrcUpdate s) := by
  induction bs generalizing c s with
  | nil => exact h
  | cons b bs ih => exact ih (h.hostCrcUpdate b)

/-- Settles O52: from CRC_CLEAR on the accumulator is the CRC of the bytes folded in, and RESULT says whether it is
0, which for the whole frame is its validity. -/
theorem crcCommandsCheckAScratchpad : Obligations.CrcCommandsCheckAScratchpad := by
  intro s data hr hlen
  have hfold := (idleWithCrc_after_crcClear hr).foldl_hostCrcUpdate
  refine ⟨?result, (hfold (data.take 8)).crc⟩
  have hne : data ≠ [] := by rintro rfl; simp at hlen
  rw [(hfold data).result, beq_iff_eq, frameValid_iff hne, crc8]

end Sys2Proof.Machine
end

section
/-! Conforming devices behind a reset, the two reads of a search position and a whole pass (44_bus_environment.md
R162, R165, R166). A bus on which every device has reached the position is told device by device: what each leaves the
line at in the two slots, and the wired-AND of these levels. -/

namespace Sys2Proof.Machine

/-! ### Reset -/

/-- Settles O26: the presence sample is 0 only on the empty bus, and the pulse reaches every device. -/
theorem resetEndsEveryDeviceSession : Obligations.ResetEndsEveryDeviceSession := by
  intro p l ds he
  obtain ⟨hpresence, hsessions⟩ := busReset_bus p he
  refine ⟨?presence, hsessions⟩
  case presence => rw [hpresence, Bool.not_eq_true', List.isEmpty_eq_false_iff]

/-! ### The two reads of a position -/

/-- A device in a search draws nothing freely (R161). -/
theorem Device.sendsFree_search {d : Device} {n : Nat} {ph : SearchPhase} {c : Bool}
    (h : d.mode = .search n ph c) : d.sendsFree = false := by
  rw [Device.sendsFree, h]

/-- In the first slot of a position a device leaves the line high unless it is a candidate with bit 0 (R161). -/
theorem Device.level_sendBit {d : Device} {n : Nat} {c : Bool} (h : d.mode = .search n .sendBit c) :
    d.level = true ↔ (d.mode = .search n .sendBit true → romBit d.rom n = true) := by
  rw [Device.level, h]
  cases c <;> simp

/-- In the second slot of a position a device leaves the line high unless it is a candidate with bit 1 (R161). -/
theorem Device.level_sendCmp {d : Device} {n : Nat} {c : Bool} (h : d.mode = .search n .sendBit c) :
    d.afterRead.level = true ↔ (d.mode = .search n .sendBit true → romBit d.rom n = false) := by
  rw [Device.level, Device.afterRead, h]
  cases c <;> simp [modeAfterRead]

section

variable (p : Params) {l : Line} {ds : List Device} {n : Nat} (he : l.env = .bus ds)
  (hds : ∀ d ∈ ds, ∃ c, d.mode = .search n .sendBit c)

include he hds

/-- The first read of a position is the AND of the candidates' bits (R165). -/
theorem lineReadBit_candidateBits :
    (lineReadBit p l).1 = true ↔ ∀ d ∈ ds, d.mode = .search n .sendBit true → romBit d.rom n = true := by
  have hfree : ∀ d ∈ ds, d.sendsFree = false := fun d hd => (hds d hd).elim fun _ => Device.sendsFree_search
  rw [lineReadBit_level p he hfree, List.all_eq_true]
  exact forall₂_congr fun d hd => (hds d hd).elim fun _ => Device.level_sendBit

/-- The second read of a position is the AND of the complements of the candidates' bits (R165). -/
theorem lineReadBit_candidateComplements :
    (lineReadBit p (lineReadBit p l).2).1 = true ↔
      ∀ d ∈ ds, d.mode = .search n .sendBit true → romBit d.rom n = false := by
  have hfree : ∀ d ∈ ds.map Device.afterRead, d.sendsFree = false := by
    refine List.forall_mem_map.2 fun d hd => ?_
    obtain ⟨c, hc⟩ := hds d hd
    exact Device.sendsFree_search (congrArg modeAfterRead hc)
  rw [lineReadBit_level p (lineReadBit_bus p he) hfree, List.all_eq_true, List.forall_mem_map]
  exact forall₂_congr fun d hd => (hds d hd).elim fun _ => Device.level_sendCmp

end

/-- Settles O43: each read is an AND over the candidates, and no candidate's bit is both 1 and 0. -/
theorem searchReadsTellTheCandidatesBits : Obligations.SearchReadsTellTheCandidatesBits := by
  intro p l ds n he hds a b
  have ha : a = true ↔ _ := lineReadBit_candidateBits p he hds
  have hb : b = true ↔ _ := lineReadBit_candidateComplements p he hds
  refine ⟨ha, hb, ⟨?noneLeft, ?bothRead⟩, ?disagree, ?shared⟩
  case noneLeft =>
    rintro ⟨hone, hzero⟩ d hd hcand
    exact absurd ((ha.1 hone d hd hcand).symm.trans (hb.1 hzero d hd hcand)) nofun
  case bothRead =>
    exact fun hnone => ⟨ha.2 fun d hd hcand => absurd hcand (hnone d hd),
      hb.2 fun d hd hcand => absurd hcand (hnone d hd)⟩
  case disagree =>
    rw [← Bool.not_eq_true a, ← Bool.not_eq_true b, ha, hb]
    push Not
    simp only [Bool.not_eq_true, Bool.not_eq_false]
    exact and_comm
  case shared =>
    intro hne d hd hcand
    cases hav : a with
    | true => exact ha.1 hav d hd hcand
    | false =>
      have hbv : b = true := by simpa [hav] using hne.symm
      exact hb.1 hbv d hd hcand

/-! ### A pass -/

/-- Settles O44: the loop keeps a candidate at every position, and after position 64 the candidates are the devices with
the code in ROM (`searchPass_bus`). -/
theorem conformingBusPassFindsADevice : Obligations.ConformingBusPassFindsADevice := by
  intro s ds hp he hne hl t
  obtain ⟨hresult, hserr, hpresence, hfinds, hbus, -, -⟩ := searchPass_bus hp he hne hl
  refine ⟨hresult, hpresence, hserr, List.mem_map.1 hfinds.mem, hbus.trans ?selected⟩
  case selected => simp [searchedBus, romsOf, Function.comp_def, t]

end Sys2Proof.Machine
end

section
/-! The reset values and the write while BUSY (70_reset_and_hazards.md R190, R191, R200): every way into reset ends with
the block at its reset values, and a block at its reset values reads as listed. -/

namespace Sys2Proof.Machine

/-- The machine right after reset holds the reset values (R21, R43). -/
theorem atResetValues_reset : AtResetValues State.reset :=
  ⟨rfl, rfl, rfl, rfl, rfl, rfl, rfl, rfl, rfl, rfl, rfl, rfl, rfl, rfl, rfl⟩

/-- The reset input, asserted or just released, leaves the block at its reset values, whatever it was in (R190). -/
theorem State.setResetPin_atResetValues {s : State} {a : Bool} (h : a = true ∨ s.resetPin = true) :
    AtResetValues (s.setResetPin a) := by
  obtain ⟨-, hset⟩ | ⟨hlow, hreleased, -⟩ := s.setResetPin_cases a
  · rw [hset]
    exact ⟨rfl, rfl, rfl, rfl, rfl, rfl, rfl, rfl, rfl, rfl, rfl, rfl, rfl, rfl, rfl⟩
  · simp [hlow, hreleased] at h

/-- While idle a register reads as its value (R46(b)). -/
theorem State.readValue_idle {s : State} (hp : s.pending = none) (r : Reg) : s.readValue r = s.regValue r := by
  simp [State.readValue, State.busy, hp]

/-- STATUS at the reset values: FAM_MATCH alone, as FILTER is off (R39). -/
theorem AtResetValues.statusByte {s : State} (h : AtResetValues s) : s.statusByte = 0x20 := by
  simp [State.statusByte, State.busy, State.famMatch, flagAt, h.pending, h.presence, h.result, h.crcOk, h.ldf,
    h.filterEn, h.serr]

/-- ROM at the reset values, byte by byte. -/
theorem AtResetValues.regValue_rom {s : State} (h : AtResetValues s) (k : Fin 8) : s.regValue (.rom k) = 0x00 := by
  simp [State.regValue, h.rom]

/-- Settles O1: each way into reset leaves the block at its reset values, and there it is idle, so a read returns the
register's value. -/
theorem resetRegistersReadAsListed : Obligations.ResetRegistersReadAsListed := by
  intro s hs
  have h : AtResetValues s := by
    obtain rfl | ⟨t, rfl⟩ | ⟨t, ht, rfl⟩ := hs
    · exact atResetValues_reset
    · exact State.setResetPin_atResetValues (.inl rfl)
    · exact State.setResetPin_atResetValues (.inr ht)
  have hread : ∀ r, s.readValue r = s.regValue r := State.readValue_idle h.pending
  refine ⟨hread .cmd, (hread .status).trans h.statusByte, (hread .data).trans h.data, ?ld,
    (hread .filter).trans h.filter, ?fctrl, (hread .crc).trans h.crc, ?err,
    fun k => (hread (.rom k)).trans (h.regValue_rom k), h.pending, ?busy, h.ldf, h.driveLow⟩
  case ld => rw [hread, State.regValue, h.ld]; rfl
  case fctrl => rw [State.readValue_fctrl, State.fctrlByte, h.filterEn]; rfl
  case err => rw [State.readValue_err, State.errByte, h.illcmd, h.overrun]; rfl
  case busy => rw [State.busy, h.pending]; rfl

/-- Settles O9: such a write is refused before its register effect, and only OVERRUN is set (R200). -/
theorem writeWhileBusyOnlySetsOverrun : Obligations.WriteWhileBusyOnlySetsOverrun :=
  fun _ _ v hp hr hne => State.hostWrite_busy hr hp hne v

end Sys2Proof.Machine
end

section
/-! What every step keeps of the block (10_state.md R26, 40_line_driver.md R92, 42_rom_search.md R137, 43_crc8.md R153,
70_reset_and_hazards.md R190). The invariant speaks of the search state, the line's driver and the reset values only, so
what a host access, a command and the reset input do to these is said once. -/

namespace Sys2Proof.Machine

/-! ### What no host write reaches -/

/-- No host write reaches the search state, its flags, the line or the host's side (R46(a), R204). -/
structure WriteFrame (s t : State) : Prop where
  ld : t.ld = s.ld
  ldf : t.ldf = s.ldf
  rom : t.rom = s.rom
  serr : t.serr = s.serr
  crcOk : t.crcOk = s.crcOk
  line : t.line = s.line
  outside : SameOutside s t

theorem WriteFrame.refl (s : State) : WriteFrame s s :=
  ⟨rfl, rfl, rfl, rfl, rfl, rfl, SameOutside.refl s⟩

/-- The register effect of a host write reaches none of it. -/
theorem State.regWrite_frame (s : State) (r : Reg) (v : Byte) : WriteFrame s (s.regWrite r v) := by
  cases r
  case cmd =>
    show WriteFrame s (s.writeCmd v)
    unfold State.writeCmd
    split
    · exact ⟨rfl, rfl, rfl, rfl, rfl, rfl, rfl, rfl, rfl, rfl, rfl⟩
    · exact ⟨rfl, rfl, rfl, rfl, rfl, rfl, rfl, rfl, rfl, rfl, rfl⟩
  all_goals exact ⟨rfl, rfl, rfl, rfl, rfl, rfl, rfl, rfl, rfl, rfl, rfl⟩

theorem State.hostWrite_frame (s : State) (r : Reg) (v : Byte) : WriteFrame s (s.hostWrite r v) := by
  rcases s.hostWrite_cases r v with hw | hw | ⟨-, -, hw⟩ <;> rw [hw]
  · exact WriteFrame.refl s
  · exact s.regWrite_frame r v
  · exact ⟨rfl, rfl, rfl, rfl, rfl, rfl, rfl, rfl, rfl, rfl, rfl⟩

/-! ### The invariant under each thing a step can do -/

/-- The reset values meet the invariant, whatever the level of the reset input (R191). -/
theorem AtResetValues.inv {s : State} (h : AtResetValues s) : Inv s where
  ldRange := h.ld ▸ Nat.zero_le 64
  ldfHasNoBranch := fun _ => h.ld
  serrIsClean := fun _ => ⟨h.ld, h.ldf, h.crcOk⟩
  crcOkIsValid := fun hcrc => absurd (h.crcOk.symm.trans hcrc) nofun
  lineReleased := h.driveLow
  heldInReset := fun _ => h

/-- Inputs taken, reads made and a changed environment are no part of the reset values. -/
theorem AtResetValues.congr_outside {s : State} (h : AtResetValues s) (is : List Input) (rs : List Byte) (n : Nat)
    (e : Env) :
    AtResetValues { s with inputs := is, responses := rs, readDraws := n, line := { s.line with env := e } } :=
  ⟨h.data, h.filter, h.filterEn, h.crc, h.illcmd, h.overrun, h.presence, h.result, h.crcOk, h.serr, h.ld, h.ldf,
    h.rom, h.pending, h.driveLow⟩

/-- Nor are they part of the invariant. -/
theorem Inv.congr_outside {s : State} (h : Inv s) (is : List Input) (rs : List Byte) (n : Nat) (e : Env) :
    Inv { s with inputs := is, responses := rs, readDraws := n, line := { s.line with env := e } } :=
  ⟨h.ldRange, h.ldfHasNoBranch, h.serrIsClean, h.crcOkIsValid, h.lineReleased,
    fun hr => (h.heldInReset hr).congr_outside is rs n e⟩

theorem Inv.setInputs {s : State} (h : Inv s) (is : List Input) : Inv (s.setInputs is) :=
  h.congr_outside is s.responses s.readDraws s.line.env

theorem Inv.hostRead {s : State} (h : Inv s) (r : Reg) : Inv (s.hostRead r) :=
  h.congr_outside s.inputs (s.readValue r :: s.responses) (s.hostRead r).readDraws s.line.env

theorem Inv.changeEnv {s : State} (h : Inv s) (c : EnvChange) : Inv (s.changeEnv c) :=
  h.congr_outside s.inputs s.responses s.readDraws (s.line.env.change c)

/-- Out of reset the invariant depends on the search state, its flags and the line's driver only. -/
theorem Inv.congr_search {s t : State} (h : Inv s) (hld : t.ld = s.ld) (hldf : t.ldf = s.ldf) (hrom : t.rom = s.rom)
    (hserr : t.serr = s.serr) (hcrc : t.crcOk = s.crcOk) (hline : t.line.driveLow = false)
    (hr : t.resetPin = false) : Inv t where
  ldRange := hld ▸ h.ldRange
  ldfHasNoBranch := hld ▸ hldf ▸ h.ldfHasNoBranch
  serrIsClean := hserr ▸ hld ▸ hldf ▸ hcrc ▸ h.serrIsClean
  crcOkIsValid := hcrc ▸ hrom ▸ h.crcOkIsValid
  lineReleased := hline
  heldInReset := fun hreset => absurd (hr.symm.trans hreset) nofun

/-- A host write does nothing in reset, and out of reset it reaches nothing that the invariant speaks of (R190). -/
theorem Inv.hostWrite {s : State} (h : Inv s) (r : Reg) (v : Byte) : Inv (s.hostWrite r v) := by
  cases hr : s.resetPin with
  | true => rwa [State.hostWrite_inReset hr]
  | false =>
    obtain ⟨hld, hldf, hrom, hserr, hcrc, hline, hout⟩ := s.hostWrite_frame r v
    exact h.congr_search hld hldf hrom hserr hcrc (hline ▸ h.lineReleased) (hout.resetPin.trans hr)

/-- The reset input leaves the reset values, or does nothing where it stays released (R190). -/
theorem Inv.setResetPin {s : State} (h : Inv s) (a : Bool) : Inv (s.setResetPin a) := by
  rcases s.setResetPin_cases a with ⟨hmoves, -⟩ | ⟨-, -, hstays⟩
  · exact (State.setResetPin_atResetValues hmoves).inv
  · rwa [hstays]

/-- Primitives leave a released line released (R92). -/
theorem Made.keepsReleased {p : Params} {acts : List LineActivity} {l m : Line} (h : Made p acts l m)
    (hl : l.driveLow = false) : m.driveLow = false := by
  by_cases hnone : acts = []
  · exact (h.kept hnone).trans hl
  · exact h.released hnone

/-- A search pass from a state that meets the invariant leaves SERR = 1 only with a clear search state, and CRC_OK = 1
only with a valid code (R127, R153). -/
theorem searchPass_flags {s : State} (h : Inv s) :
    let t := searchPass s
    (t.serr = true → t.ld = 0 ∧ t.ldf = false ∧ t.crcOk = false) ∧ (t.crcOk = true → romValid t.rom = true) := by
  intro t
  rcases searchPass_cases s with ⟨-, ht⟩ | ⟨-, -, ht⟩ | ⟨hl, hp, -⟩
  · rw [show t = s.passExhausted from ht]
    exact ⟨h.serrIsClean, h.crcOkIsValid⟩
  · rw [show t = s.passReset.passNoPresence from ht]
    exact ⟨nofun, nofun⟩
  · obtain ⟨xs, -, -, -, ⟨-, -, hld, hldf, -, hcrc, -⟩ | ⟨-, -, -, -, hserr, hcrc, -⟩⟩ :=
      searchPass_effect s hl hp
    · exact ⟨fun _ => ⟨hld, hldf, hcrc⟩, fun hok => absurd (hcrc.symm.trans hok) nofun⟩
    · exact ⟨fun hbad => absurd (hserr.symm.trans hbad) nofun, fun hok => hcrc.symm.trans hok⟩

/-- A search pass keeps the invariant (R123 to R137). -/
theorem Inv.searchPass {s : State} (h : Inv s) (hr : s.resetPin = false) : Inv (searchPass s) := by
  obtain ⟨hld, hldf, -, -⟩ := searchPass_invariants s
  obtain ⟨hserr, hcrc⟩ := searchPass_flags h
  obtain ⟨acts, hmade, -, -⟩ := searchPass_made s
  exact ⟨hld h.ldRange, hldf h.ldfHasNoBranch, hserr, hcrc, hmade.keepsReleased h.lineReleased,
    fun hreset => absurd (hr.symm.trans ((searchPass_frame s).outside.resetPin.symm.trans hreset)) nofun⟩

/-- A cleared search state meets what the invariant asks of it (R121). -/
theorem Inv.clearSearch {s : State} (h : Inv s) (hr : s.resetPin = false) : Inv s.clearSearch where
  ldRange := Nat.zero_le 64
  ldfHasNoBranch := nofun
  serrIsClean := fun hserr => ⟨rfl, rfl, (h.serrIsClean hserr).2.2⟩
  crcOkIsValid := h.crcOkIsValid
  lineReleased := h.lineReleased
  heldInReset := fun hreset => absurd (hr.symm.trans hreset) nofun

/-- Every command keeps the invariant: the searches are passes, and no other command writes the search state (R40). -/
theorem Inv.effect {s : State} (h : Inv s) (hr : s.resetPin = false) (i : Instr) : Inv (effect i s) := by
  by_cases hfirst : i = .searchFirst
  · subst hfirst; exact (h.clearSearch hr).searchPass hr
  by_cases hnext : i = .searchNext
  · subst hnext; exact h.searchPass hr
  obtain ⟨hld, hldf, hrom, hserr, hcrc, -⟩ := effect_searchState hfirst hnext s
  obtain ⟨acts, hmade, -, -⟩ := effect_made i s
  exact h.congr_search hld hldf hrom hserr hcrc (hmade.keepsReleased h.lineReleased)
    ((effect_outside i s).resetPin.trans hr)

/-- Completion out of reset keeps the invariant. -/
theorem Inv.complete {s : State} (h : Inv s) (hr : s.resetPin = false) : Inv s.complete :=
  h.congr_search rfl rfl rfl rfl rfl h.lineReleased hr

/-- Settles O58: each thing a step can do keeps the invariant. -/
theorem everyStepKeepsTheInvariant : Obligations.EveryStepKeepsTheInvariant := by
  intro s t h hstep
  rcases step_cases hstep with ⟨p, u, -, hr, hu, rfl⟩ | ⟨rfl, -⟩ | ⟨rest, -, rfl, -⟩ | ⟨-, r, v, rest, -, rfl⟩ |
    ⟨-, r, rest, -, rfl⟩ | ⟨rest, -, -, rfl⟩ | ⟨a, rest, -, rfl⟩ | ⟨c, rest, -, rfl⟩
  · have hu' : Inv u ∧ u.resetPin = false := by
      rcases hu with rfl | ⟨rest, -, rfl⟩
      · exact ⟨h, hr⟩
      · exact ⟨h.setInputs rest, hr⟩
    obtain ⟨hinv, hru⟩ := hu'
    exact (hinv.effect hru p.op).complete ((effect_outside p.op u).resetPin.trans hru)
  · exact h
  · exact h.setInputs rest
  · exact (h.hostWrite r v).setInputs rest
  · exact (h.hostRead r).setInputs rest
  · exact (h.hostRead .status).setInputs rest
  · exact (h.setResetPin a).setInputs rest
  · exact (h.changeEnv c).setInputs rest

/-- Settles O59: after reset every element that has a reset value holds it. -/
theorem resetMeetsTheInvariant : Obligations.ResetMeetsTheInvariant :=
  atResetValues_reset.inv

end Sys2Proof.Machine
end

section
/-! A step said input by input (10_state.md R46): the block's turn, the host's accesses with their address and width
(20_memory.md R50, R53), polling (30_encoding.md R73), and what follows for the stops of a step, the completion of a
pending command and the runs of the mnemonics. -/

namespace Sys2Proof.Machine

/-! ### Whose turn it is -/

/-- With no input left the block has its turn. -/
theorem step_noInput {s : State} (h : s.inputs = []) : step s = blockTurn s := by
  rw [step, stepTurn, h]

/-- The first input is the one that takes effect. -/
theorem step_input {s : State} {i : Input} {rest : List Input} (h : s.inputs = i :: rest) :
    step s = inputTurn s rest i := by
  rw [step, stepTurn, h]

/-- Out of reset the block's turn runs the pending command (R46(c)). -/
theorem blockTurn_pending {s : State} {p : Pending} (hp : s.pending = some p) (hr : s.resetPin = false) :
    blockTurn s = exec p.op s := by
  simp [blockTurn, hr, hp]

/-- In reset the block's turn does nothing (R190). -/
theorem blockTurn_inReset {s : State} (hr : s.resetPin = true) : blockTurn s = .next s := by
  simp [blockTurn, hr]

/-- The block's turn stops nowhere (R48). -/
theorem blockTurn_next (s : State) : ∃ t, blockTurn s = .next t := by
  cases hr : s.resetPin with
  | true => exact ⟨s, blockTurn_inReset hr⟩
  | false =>
    cases hp : s.pending with
    | none => exact ⟨s, by simp [blockTurn, hr, hp]⟩
    | some p => exact ⟨_, (blockTurn_pending hp hr).trans (exec_eq p.op s)⟩

/-- BUSY is 1 exactly with a command pending (R35). -/
theorem State.busy_iff {s : State} : s.busy = true ↔ s.pending ≠ none :=
  Option.isSome_iff_ne_none

/-- While BUSY a poll gives the block its turn and stays (R73). -/
theorem pollTurn_busy {s : State} {p : Pending} (hp : s.pending = some p) (rest : List Input) :
    pollTurn s rest = blockTurn s := by
  simp [pollTurn, State.busy, hp]

/-- With BUSY = 0 a poll is one read of STATUS (R73). -/
theorem pollTurn_idle {s : State} (hp : s.pending = none) (rest : List Input) :
    pollTurn s rest = .next ((s.hostRead .status).setInputs rest) := by
  simp [pollTurn, State.busy, hp]

/-- The step of a poll with BUSY = 0 is one read of STATUS (R73). -/
theorem step_poll_idle {s : State} {rest : List Input} (hp : s.pending = none) (h : s.inputs = .poll :: rest) :
    step s = .next ((s.hostRead .status).setInputs rest) :=
  (step_input h).trans (pollTurn_idle hp rest)

/-- A pending command runs when no input is left, when it is the block's turn, and when the host polls (R46, R73). -/
theorem step_pending {s : State} {p : Pending} (hp : s.pending = some p) (hr : s.resetPin = false) :
    (s.inputs = [] → step s = exec p.op s) ∧
    (∀ rest, s.inputs = .blockTurn :: rest → step s = exec p.op (s.setInputs rest)) ∧
    (∀ rest, s.inputs = .poll :: rest → step s = exec p.op s) :=
  ⟨fun h => (step_noInput h).trans (blockTurn_pending hp hr),
    fun rest h => (step_input h).trans (blockTurn_pending (s := s.setInputs rest) hp hr),
    fun rest h => (step_input h).trans ((pollTurn_busy hp rest).trans (blockTurn_pending hp hr))⟩

/-! ### Host addresses -/

/-- The block answers the sixteen addresses from `BLOCK_BASE`, each by its offset (R50). -/
theorem hostOffset_base_add (p : Params) (off : Offset) : hostOffset p (p.blockBase + off.toNat) = some off := by
  have hlt : off.toNat < 16 := off.isLt
  simp [hostOffset, hlt]

/-- The block answers no other address (R50). -/
theorem hostOffset_isSome_iff (p : Params) (addr : Nat) :
    (hostOffset p addr).isSome = true ↔ p.blockBase ≤ addr ∧ addr < p.blockBase + 16 := by
  simp only [hostOffset]
  split <;> simp [*]

/-- An address inside the block is the base with an offset. -/
theorem exists_offset_of_mem {p : Params} {addr : Nat} (h : p.blockBase ≤ addr ∧ addr < p.blockBase + 16) :
    ∃ off : Offset, addr = p.blockBase + off.toNat :=
  ⟨BitVec.ofNat 4 (addr - p.blockBase), by rw [BitVec.toNat_ofNat]; omega⟩

/-- A one-byte host access inside the block reaches the register at its offset (R50). -/
theorem hostAccess_inside (s : State) (off : Offset) (act : Reg → State) :
    hostAccess s (s.params.blockBase + off.toNat) 1 act = .next (act (regAt off)) := by
  simp [hostAccess, hostOffset_base_add]

/-- A host access of another width is refused (R53). -/
theorem hostAccess_wrongWidth (s : State) (addr : Nat) {width : Nat} (act : Reg → State) (h : width ≠ 1) :
    hostAccess s addr width act = .refused (.accessWidth width) := by
  simp [hostAccess, h]

/-- A one-byte host access outside the block faults (R50, log entry 14). -/
theorem hostAccess_outside (s : State) {addr : Nat} (act : Reg → State)
    (h : ¬(s.params.blockBase ≤ addr ∧ addr < s.params.blockBase + 16)) :
    hostAccess s addr 1 act = .fault (.outsideBlock addr) := by
  have hnone : hostOffset s.params addr = none := by
    rw [← Option.not_isSome_iff_eq_none, hostOffset_isSome_iff]
    exact h
  simp [hostAccess, hnone]

/-- All a host access can do: reach a register, be refused for its width, or fault for its address. -/
theorem hostAccess_cases (s : State) (addr width : Nat) (act : Reg → State) :
    (width = 1 ∧ ∃ r, hostAccess s addr width act = .next (act r)) ∨
    (width ≠ 1 ∧ hostAccess s addr width act = .refused (.accessWidth width)) ∨
    (width = 1 ∧ ¬(s.params.blockBase ≤ addr ∧ addr < s.params.blockBase + 16) ∧
      hostAccess s addr width act = .fault (.outsideBlock addr)) := by
  by_cases hw : width = 1
  · subst hw
    by_cases h : s.params.blockBase ≤ addr ∧ addr < s.params.blockBase + 16
    · obtain ⟨off, rfl⟩ := exists_offset_of_mem h
      exact Or.inl ⟨rfl, _, hostAccess_inside s off act⟩
    · exact Or.inr (Or.inr ⟨rfl, h, hostAccess_outside s act h⟩)
  · exact Or.inr (Or.inl ⟨hw, hostAccess_wrongWidth s addr act hw⟩)

/-- The step of a host write is that host access. -/
theorem step_write {s : State} {addr width : Nat} {v : Byte} {rest : List Input}
    (h : s.inputs = .write addr width v :: rest) :
    step s = hostAccess s addr width (fun r => (s.hostWrite r v).setInputs rest) :=
  step_input h

/-- The step of a host read is that host access. -/
theorem step_read {s : State} {addr width : Nat} {rest : List Input} (h : s.inputs = .read addr width :: rest) :
    step s = hostAccess s addr width (fun r => (s.hostRead r).setInputs rest) :=
  step_input h

/-- A one-byte host write inside the block is done by the step. -/
theorem step_write_inside {s : State} {off : Offset} {v : Byte} {rest : List Input}
    (h : s.inputs = .write (s.params.blockBase + off.toNat) 1 v :: rest) :
    step s = .next ((s.hostWrite (regAt off) v).setInputs rest) :=
  (step_write h).trans (hostAccess_inside s off _)

/-- A one-byte host read inside the block is done by the step. -/
theorem step_read_inside {s : State} {off : Offset} {rest : List Input}
    (h : s.inputs = .read (s.params.blockBase + off.toNat) 1 :: rest) :
    step s = .next ((s.hostRead (regAt off)).setInputs rest) :=
  (step_read h).trans (hostAccess_inside s off _)

/-- A step that takes a host access leaves the line alone, is refused for the width or faults for the address. -/
theorem step_hostAccess_cases {s : State} {addr width : Nat} {rest : List Input}
    (h : (∃ v, s.inputs = .write addr width v :: rest) ∨ s.inputs = .read addr width :: rest) :
    (∃ t, step s = .next t ∧ t.line = s.line) ∨
    (width ≠ 1 ∧ step s = .refused (.accessWidth width)) ∨
    (width = 1 ∧ ¬(s.params.blockBase ≤ addr ∧ addr < s.params.blockBase + 16) ∧
      step s = .fault (.outsideBlock addr)) := by
  have hact : ∃ act : Reg → State, step s = hostAccess s addr width act ∧ ∀ r, (act r).line = s.line := by
    obtain ⟨v, h⟩ | h := h
    · exact ⟨_, step_write h, fun r => (s.hostWrite_frame r v).line⟩
    · exact ⟨_, step_read h, fun _ => rfl⟩
  obtain ⟨act, hstep, hline⟩ := hact
  rw [hstep]
  exact (hostAccess_cases s addr width act).imp_left fun ⟨_, r, hnext⟩ => ⟨_, hnext, hline r⟩

/-! ### What stops, and what completes -/

/-- Settles O6: a command answers its completed effect (`exec_eq`). -/
theorem everyCommandCompletes : Obligations.EveryCommandCompletes :=
  fun i s => ⟨_, exec_eq i s, rfl, State.complete_outside (effect_outside i s)⟩

/-- A step that takes no host access stops nowhere. -/
theorem step_next_of_noAccess {s : State}
    (h : ∀ addr width rest, ¬((∃ v, s.inputs = .write addr width v :: rest) ∨ s.inputs = .read addr width :: rest)) :
    ∃ t, step s = .next t := by
  cases hi : s.inputs with
  | nil => exact step_noInput hi ▸ blockTurn_next s
  | cons i rest =>
    rw [step_input hi]
    cases i with
    | write addr width v => exact absurd (Or.inl ⟨v, hi⟩) (h addr width rest)
    | read addr width => exact absurd (Or.inr hi) (h addr width rest)
    | poll =>
      cases hp : s.pending with
      | none => exact ⟨_, pollTurn_idle hp rest⟩
      | some p => exact (blockTurn_next s).imp fun _ => (pollTurn_busy hp rest).trans
    | blockTurn => exact blockTurn_next (s.setInputs rest)
    | resetLine a => exact ⟨_, rfl⟩
    | environment c => exact ⟨_, rfl⟩

/-- Settles O7: only a host access stops, by its width first and then by its address. -/
theorem onlyBadHostAccessesStop : Obligations.OnlyBadHostAccessesStop := by
  refine ⟨fun s => ?only, fun s addr width rest h => ?badAccess⟩
  case only =>
    by_cases h : ∃ addr width rest,
        (∃ v, s.inputs = .write addr width v :: rest) ∨ s.inputs = .read addr width :: rest
    · obtain ⟨addr, width, rest, h⟩ := h
      exact (step_hostAccess_cases h).imp (fun ⟨t, ht, _⟩ => ⟨t, ht⟩) fun hstop => ⟨addr, width, rest, h, hstop⟩
    · exact Or.inl (step_next_of_noAccess fun addr width rest haccess => h ⟨addr, width, rest, haccess⟩)
  case badAccess =>
    have hact : ∃ act, step s = hostAccess s addr width act := by
      obtain ⟨v, h⟩ | h := h
      · exact ⟨_, step_write h⟩
      · exact ⟨_, step_read h⟩
    obtain ⟨act, hstep⟩ := hact
    rw [hstep]
    exact ⟨hostAccess_wrongWidth s addr act, fun hw hout => hw ▸ hostAccess_outside s act hout⟩

/-- Settles O57: a step that takes a host access is that access, which has no line of its own. -/
theorem hostAccessesNeverReachTheLine : Obligations.HostAccessesNeverReachTheLine := by
  intro s t rest h hstep
  have hcases : ∃ addr width,
      (∃ v, s.inputs = .write addr width v :: rest) ∨ s.inputs = .read addr width :: rest := by
    obtain ⟨addr, width, v, h⟩ | ⟨addr, width, h⟩ := h
    · exact ⟨addr, width, Or.inl ⟨v, h⟩⟩
    · exact ⟨addr, width, Or.inr h⟩
  obtain ⟨addr, width, h⟩ := hcases
  rcases step_hostAccess_cases h with ⟨u, hu, hline⟩ | ⟨-, hstop⟩ | ⟨-, -, hstop⟩
  · cases hstep.symm.trans hu
    exact hline
  · cases hstep.symm.trans hstop
  · cases hstep.symm.trans hstop

/-- A host write while BUSY leaves the command pending. -/
theorem State.hostWrite_pending {s : State} (hp : s.pending ≠ none) (r : Reg) (v : Byte) :
    (s.hostWrite r v).pending = s.pending := by
  cases hr : s.resetPin with
  | true => rw [State.hostWrite_inReset hr]
  | false =>
    by_cases hne : r = .err
    · subst hne; rw [State.hostWrite_err hr]; rfl
    · rw [State.hostWrite_busy hr hp hne]; rfl

/-- A good host access is one byte wide and at the base with an offset (R50, R53). -/
theorem exists_offset_of_wf {p : Params} {addr width : Nat}
    (h : (width == 1 && (hostOffset p addr).isSome) = true) :
    width = 1 ∧ ∃ off : Offset, addr = p.blockBase + off.toNat := by
  simp only [Bool.and_eq_true, beq_iff_eq, hostOffset_isSome_iff] at h
  exact ⟨h.1, exists_offset_of_mem h.2⟩

/-- The command pending in `s` is still pending in `t`, out of reset, with one input less. -/
structure StillPending (s t : State) (i : Input) : Prop where
  pending : t.pending = s.pending
  resetPin : t.resetPin = false
  params : t.params = s.params
  inputs : s.inputs = i :: t.inputs

/-- With a command pending out of reset a step on good inputs ends with none pending, or uses up an input. -/
theorem step_completes_or_waits {s : State} (hp : s.pending ≠ none) (hr : s.resetPin = false)
    (hwf : ∀ i ∈ s.inputs, Input.wf s.params i = true) :
    ∃ t, step s = .next t ∧ (t.pending = none ∨ ∃ i, StillPending s t i) := by
  obtain ⟨p, hp'⟩ := Option.ne_none_iff_exists'.mp hp
  obtain ⟨hnone, hturn, hpoll⟩ := step_pending hp' hr
  cases hi : s.inputs with
  | nil => exact ⟨_, (hnone hi).trans (exec_eq _ _), Or.inl rfl⟩
  | cons i rest =>
    have hi' : Input.wf s.params i = true := hwf i (by simp [hi])
    cases i with
    | write addr width v =>
      obtain ⟨rfl, off, rfl⟩ := exists_offset_of_wf hi'
      have hout := (s.hostWrite_frame (regAt off) v).outside
      exact ⟨_, step_write_inside hi,
        Or.inr ⟨_, State.hostWrite_pending hp _ v, hout.resetPin.trans hr, hout.params, hi⟩⟩
    | read addr width =>
      obtain ⟨rfl, off, rfl⟩ := exists_offset_of_wf hi'
      exact ⟨_, step_read_inside hi, Or.inr ⟨_, rfl, hr, rfl, hi⟩⟩
    | poll => exact ⟨_, (hpoll rest hi).trans (exec_eq _ _), Or.inl rfl⟩
    | blockTurn => exact ⟨_, (hturn rest hi).trans (exec_eq _ _), Or.inl rfl⟩
    | resetLine a =>
      refine ⟨_, step_input hi, ?_⟩
      rcases s.setResetPin_cases a with ⟨-, hset⟩ | ⟨-, -, hset⟩ <;> rw [hset]
      · exact Or.inl rfl
      · exact Or.inr ⟨_, rfl, hr, rfl, hi⟩
    | environment c => exact ⟨_, step_input hi, Or.inr ⟨_, rfl, hr, rfl, hi⟩⟩

/-- A run goes on from the state a step answers. -/
theorem runSteps_succ {s t : State} (h : step s = .next t) (k : Nat) : runSteps (k + 1) s = runSteps k t := by
  rw [runSteps, h]

/-- Settles O8, by induction over the inputs that wait: each step completes the command, resets the block, or uses up
one input. -/
theorem pendingCommandCompletesInBoundedSteps : Obligations.PendingCommandCompletesInBoundedSteps := by
  intro s hp hr hwf
  generalize hn : s.inputs.length = n
  induction n generalizing s with
  | zero =>
    obtain ⟨t, hstep, hdone | ⟨i, hwait⟩⟩ := step_completes_or_waits hp hr hwf
    · exact ⟨1, t, Nat.le_refl 1, runSteps_succ hstep 0, hdone⟩
    · simp [hwait.inputs] at hn
  | succ n ih =>
    obtain ⟨t, hstep, hdone | ⟨i, hpend, hpin, hparams, hinputs⟩⟩ := step_completes_or_waits hp hr hwf
    · exact ⟨1, t, by omega, runSteps_succ hstep 0, hdone⟩
    · have hwf' : ∀ i ∈ t.inputs, Input.wf t.params i = true :=
        fun i hi => hparams ▸ hwf i (hinputs ▸ List.mem_cons_of_mem _ hi)
      obtain ⟨k, u, hk, hrun, hdone⟩ := ih t (hpend ▸ hp) hpin hwf' (by simpa [hinputs] using hn)
      exact ⟨k + 1, u, by omega, (runSteps_succ hstep k).trans hrun, hdone⟩

/-! ### Running the decoded command -/

/-- The table word of a legal byte is its command (R72). -/
theorem decodeTableWord_of_decode {v : Byte} {i : Instr} (h : decode v = .ok i) :
    decodeTableWord 8 v.toNat = some i := by
  have hlt : v.toNat < 256 := v.isLt
  simp [decodeTableWord, Nat.mod_eq_of_lt hlt, hlt, h]

/-- A legal byte placed for the next step stands pending, with no input before it and the reset input released. -/
theorem State.withFetchWord_legal {v : Byte} {i : Instr} (h : decode v = .ok i) (s : State) :
    s.withFetchWord 8 v.toNat = { s.accept i with inputs := [], resetPin := false } := by
  rw [State.withFetchWord, State.placeCommand, decodeTableWord_of_decode h]

/-- Settles O4: the block's turn is the pending command's, a host write is done at its register, and a placed command is
pending with nothing before it. -/
theorem stepRunsTheDecodedCommand : Obligations.StepRunsTheDecodedCommand := by
  refine ⟨fun s p hp hr => step_pending hp hr, fun s v rest h => ?cmdWrite, fun s off v rest h => step_write_inside h,
    fun s v i h => ?placed⟩
  case cmdWrite => exact step_write_inside (off := 0x0) h
  case placed =>
    rw [State.withFetchWord_legal h]
    exact ⟨rfl, (step_pending (p := { op := i, operand := s.data }) rfl rfl).1 rfl⟩

/-! ### Mnemonics -/

/-- A poll with a command pending runs it, and then reads STATUS (R73). -/
theorem runSteps_poll {s : State} {p : Pending} (hp : s.pending = some p) (hr : s.resetPin = false)
    (hi : s.inputs = [.poll]) :
    let t := (effect p.op (s.setInputs [])).complete
    runSteps 2 s = .next { t with responses := t.statusByte :: s.responses } := by
  intro t
  have hrun : step s = .next (t.setInputs [.poll]) := by
    have hs : s = (s.setInputs []).setInputs [.poll] := by rw [← hi]; rfl
    rw [(step_pending hp hr).2.2 [] hi, exec_eq]
    conv_lhs => rw [hs, effect_setInputs]
    rfl
  have hread := step_poll_idle (s := t.setInputs [.poll]) rfl rfl
  have hout := State.complete_outside (effect_outside p.op (s.setInputs []))
  have hinputs : t.inputs = [] := hout.inputs
  have hresponses : t.responses = s.responses := hout.responses
  rw [runSteps_succ hrun, runSteps_succ hread, hinputs, ← hresponses]
  rfl

/-- `wr CMD, code` while idle makes the command pending (R68). -/
theorem step_wrCmd {s : State} {i : Instr} {rest : List Input} (hp : s.pending = none) (hr : s.resetPin = false)
    (hi : s.inputs = progWr s.params .cmd (encode i) :: rest) :
    step s = .next ((s.accept i).setInputs rest) := by
  rw [step_write_inside (off := 0x0) hi]
  show Host.Outcome.next ((s.hostWrite .cmd (encode i)).setInputs rest) = _
  rw [State.hostWrite_idle hr hp, State.regWrite, State.writeCmd_legal (decode_encode i)]

/-- `wr CMD, code; poll` while idle runs the command on DATA as it stands, and then reads STATUS (R74). -/
theorem runSteps_progCommand {s : State} {i : Instr} (hp : s.pending = none) (hr : s.resetPin = false)
    (hi : s.inputs = progCommand s.params i) :
    let t := (effect i ((s.accept i).setInputs [])).complete
    runSteps 3 s = .next { t with responses := t.statusByte :: s.responses } := by
  rw [runSteps_succ (step_wrCmd hp hr hi)]
  exact runSteps_poll (s := (s.accept i).setInputs [.poll]) rfl hr rfl

/-- Settles O17: the write of CMD accepts the command, the poll runs it and reads STATUS; the form with operand writes
DATA first. -/
theorem mnemonicExpansionRunsItsCommand : Obligations.MnemonicExpansionRunsItsCommand := by
  refine ⟨fun s i hp hr hi => ⟨_, exec_eq i _, fun hbit hbyte => effect_data hbit hbyte _,
    runSteps_progCommand hp hr hi⟩, fun s i v hp hr hi => ⟨_, exec_eq i _, ?withOperand⟩⟩
  case withOperand =>
    have hdata : step s = .next { s with data := v, inputs := progCommand s.params i } := by
      rw [step_write_inside (off := 0x2) hi]
      show Host.Outcome.next ((s.hostWrite .data v).setInputs (progCommand s.params i)) = _
      rw [State.hostWrite_idle hr hp]
      rfl
    rw [runSteps_succ hdata]
    exact runSteps_progCommand (s := { s with data := v, inputs := progCommand s.params i }) hp hr rfl

end Sys2Proof.Machine
end

section
/-! What the line goes through in a command (40_line_driver.md R85 to R92, 70_reset_and_hazards.md R206): a relation
between lines that is reflexive and transitive and that each of the three primitives respects holds between the line
before a command and the line after it. The relation is history for every environment, and for a line held low (R169)
also what the slots read. -/

namespace Sys2Proof.Machine

/-! ### From the primitives to a command -/

/-- A relation between lines that holds over any sequence of primitives. -/
structure HoldsOverPrimitives (R : Line → Line → Prop) : Prop where
  refl : ∀ l, R l l
  trans : ∀ {l m n}, R l m → R m n → R l n
  reset : ∀ p l, R l (busReset p l).2
  write : ∀ p b l, R l (lineWriteBit p b l)
  read : ∀ p l, R l (lineReadBit p l).2

namespace HoldsOverPrimitives

variable {R : Line → Line → Prop} (h : HoldsOverPrimitives R)

include h

theorem writeByte (p : Params) (v : Byte) (l : Line) : R l (lineWriteByte p v l) := by
  have hslots : ∀ (is : List Nat) (l : Line), R l (is.foldl (fun l i => lineWriteBit p (v.getLsbD i) l) l) := by
    intro is
    induction is with
    | nil => exact h.refl
    | cons i is ih => exact fun l => h.trans (h.write p _ l) (ih _)
  exact hslots bitIndices l

theorem readByte (p : Params) (l : Line) : R l (lineReadByte p l).2 := by
  have hslots : ∀ (is : List Nat) (x : Byte × Line), R x.2 (is.foldl (readByteStep p) x).2 := by
    intro is
    induction is with
    | nil => exact fun x => h.refl x.2
    | cons i is ih => exact fun x => h.trans (h.read p x.2) (ih (readByteStep p x i))
  exact hslots bitIndices (0x00, l)

theorem searchFrom (k n : Nat) (s : State) : R s.line (searchFrom k n s).line := by
  induction k generalizing n s with
  | zero => exact h.refl s.line
  | succ k ih =>
    have hreads : R s.line (s.readPair n).line := h.trans (h.read s.params s.line) (h.read s.params _)
    rw [Machine.searchFrom]
    split
    · exact hreads
    · exact h.trans (h.trans hreads (h.write s.params _ _)) (ih (n + 1) ((s.readPair n).takeBranch n))

theorem searchPass (s : State) : R s.line (searchPass s).line := by
  rcases searchPass_cases s with ⟨-, hpass⟩ | ⟨-, -, hpass⟩ | ⟨-, -, hpass⟩ <;> rw [hpass]
  · exact h.refl s.line
  · exact h.reset s.params s.line
  · exact h.trans (h.trans (h.reset s.params s.line) (h.writeByte s.params s.params.searchRomCode _))
      (h.searchFrom romBits 1 s.passReset.passStart)

theorem effect (i : Instr) (s : State) : R s.line (effect i s).line := by
  cases i
  case nop => exact h.refl s.line
  case crcClear => exact h.refl s.line
  case crcUpdate => exact h.refl s.line
  case busReset => exact h.reset s.params s.line
  case writeBit => exact h.write s.params s.operandBit s.line
  case readBit => exact h.read s.params s.line
  case writeByte => exact h.writeByte s.params s.operand s.line
  case readByte => exact h.readByte s.params s.line
  case searchFirst => exact h.searchPass s.clearSearch
  case searchNext => exact h.searchPass s

end HoldsOverPrimitives

/-! ### The line driver -/

/-- Settles O21: the sample is the wired-AND, and each primitive in one line has the line released and the environment's
answer as its result. -/
theorem primitivesReleaseTheLine : Obligations.PrimitivesReleaseTheLine := by
  intro p l b level
  refine ⟨?sample, ?_⟩
  case sample => simp [lineStep]
  rw [busReset_eq, lineWriteBit_eq, lineReadBit_eq]
  exact ⟨rfl, rfl, rfl, rfl, rfl⟩

/-- Settles O23: the primitives of a command are those of its effect, counted by `effect_made`. -/
theorem commandMakesAtMostOneResetAndTwoHundredSlots : Obligations.CommandMakesAtMostOneResetAndTwoHundredSlots := by
  intro i s t ht
  obtain rfl := exec_next ht
  obtain ⟨acts, hmade, hresets, hslots⟩ := effect_made i s
  exact ⟨acts, hmade.activity, hresets, hslots⟩

/-! ### History over a step -/

/-- The line `m` has the history of `l`: what the line carried is only added to, and time does not go back. -/
def HasHistory (l m : Line) : Prop := l.activity <:+ m.activity ∧ l.timebase ≤ m.timebase

/-- A primitive in one line adds one record and its time (R88 to R91). -/
theorem SamePort.hasHistory_made {l m : Line} (h : SamePort l m) (t : Nat) (a : LineActivity) :
    HasHistory l (m.made t a) := by
  refine ⟨?carried, ?time⟩
  case carried => exact h.activity ▸ List.suffix_cons a m.activity
  case time => exact h.timebase ▸ Nat.le_add_right m.timebase t

theorem holdsOverPrimitives_hasHistory : HoldsOverPrimitives HasHistory where
  refl l := ⟨List.suffix_refl _, Nat.le_refl _⟩
  trans h k := ⟨h.1.trans k.1, h.2.trans k.2⟩
  reset p l := by rw [busReset_eq]; exact (envReset_samePort l).hasHistory_made _ _
  write p b l := by rw [lineWriteBit_eq]; exact (envWrite_samePort p b l).hasHistory_made _ _
  read p l := by rw [lineReadBit_eq]; exact (envRead_samePort l).hasHistory_made _ _

/-- A step keeps the parameters and the history: what it leaves of `s` in `t`. -/
structure KeepsHistory (s t : State) : Prop where
  params : t.params = s.params
  inputs : t.inputs <:+ s.inputs
  responses : s.responses <:+ t.responses
  line : HasHistory s.line t.line

/-- Taking the first input is taking the inputs in order. -/
theorem suffix_of_eq_cons {is rest : List Input} {i : Input} (h : is = i :: rest) : rest <:+ is :=
  h ▸ List.suffix_cons i rest

/-- A completed command keeps the history. -/
theorem complete_effect_keepsHistory (i : Instr) (s : State) : KeepsHistory s (effect i s).complete := by
  have hout := effect_outside i s
  obtain ⟨hcarried, htime⟩ := holdsOverPrimitives_hasHistory.effect i s
  refine ⟨hout.params, hout.inputs ▸ List.suffix_refl _, hout.responses ▸ List.suffix_refl _, hcarried, ?time⟩
  case time => exact htime.trans (Nat.le_add_right _ _)

theorem step_keepsHistory {s t : State} (h : step s = .next t) : KeepsHistory s t := by
  have hline := holdsOverPrimitives_hasHistory.refl s.line
  rcases step_cases h with ⟨p, u, -, -, hu, rfl⟩ | ⟨rfl, -⟩ | ⟨rest, hi, rfl, -⟩ | ⟨_, r, v, rest, hi, rfl⟩ |
    ⟨_, r, rest, hi, rfl⟩ | ⟨rest, hi, -, rfl⟩ | ⟨a, rest, hi, rfl⟩ | ⟨c, rest, hi, rfl⟩
  · obtain ⟨hparams, hinputs, hresponses, hhistory⟩ := complete_effect_keepsHistory p.op u
    obtain rfl | ⟨rest, hi, rfl⟩ := hu
    · exact ⟨hparams, hinputs, hresponses, hhistory⟩
    · exact ⟨hparams, hinputs.trans (suffix_of_eq_cons hi), hresponses, hhistory⟩
  · exact ⟨rfl, List.suffix_refl _, List.suffix_refl _, hline⟩
  · exact ⟨rfl, suffix_of_eq_cons hi, List.suffix_refl _, hline⟩
  · have hw := s.hostWrite_frame r v
    exact ⟨hw.outside.params, suffix_of_eq_cons hi, hw.outside.responses ▸ List.suffix_refl _, hw.line ▸ hline⟩
  · exact ⟨rfl, suffix_of_eq_cons hi, List.suffix_cons _ _, hline⟩
  · exact ⟨rfl, suffix_of_eq_cons hi, List.suffix_cons _ _, hline⟩
  · rcases s.setResetPin_cases a with ⟨-, hset⟩ | ⟨-, -, hset⟩ <;> rw [hset] <;>
      exact ⟨rfl, suffix_of_eq_cons hi, List.suffix_refl _, hline⟩
  · exact ⟨rfl, suffix_of_eq_cons hi, List.suffix_refl _, hline⟩

/-- Settles O56: every case of a step keeps the history, a command's because each of its primitives does. -/
theorem stepKeepsParametersAndHistory : Obligations.StepKeepsParametersAndHistory := by
  intro s t h
  obtain ⟨hparams, hinputs, hresponses, hcarried, htime⟩ := step_keepsHistory h
  exact ⟨hparams, hinputs, hresponses, hcarried, htime⟩

/-- Settles O55: among the cases of a step only a search command and the reset input write the search state (R40). -/
theorem onlySearchOrResetChangesTheSearchState : Obligations.OnlySearchOrResetChangesTheSearchState := by
  intro s t h
  rcases step_cases h with ⟨p, u, hp, -, hu, rfl⟩ | ⟨rfl, -⟩ | ⟨rest, -, rfl, -⟩ | ⟨-, r, v, rest, -, rfl⟩ |
    ⟨-, r, rest, -, rfl⟩ | ⟨rest, -, -, rfl⟩ | ⟨a, rest, hi, -⟩ | ⟨c, rest, -, rfl⟩
  · by_cases hsearch : p.op = .searchFirst ∨ p.op = .searchNext
    · exact Or.inr (Or.inl ⟨p, hp, hsearch, rfl⟩)
    · obtain ⟨hfirst, hnext⟩ := not_or.mp hsearch
      obtain ⟨hld, hldf, hrom, -⟩ := effect_searchState hfirst hnext u
      refine Or.inl ?_
      obtain rfl | ⟨rest, -, rfl⟩ := hu <;> exact ⟨hld, hldf, hrom⟩
  · exact Or.inl ⟨rfl, rfl, rfl⟩
  · exact Or.inl ⟨rfl, rfl, rfl⟩
  · have hw := s.hostWrite_frame r v
    exact Or.inl ⟨hw.ld, hw.ldf, hw.rom⟩
  · exact Or.inl ⟨rfl, rfl, rfl⟩
  · exact Or.inl ⟨rfl, rfl, rfl⟩
  · exact Or.inr (Or.inr ⟨a, rest, hi⟩)
  · exact Or.inl ⟨rfl, rfl, rfl⟩

/-! ### A line held low -/

/-- The records a line held low can leave: presence, and reads of 0 (R169). -/
def LineActivity.ReadsLow : LineActivity → Prop
  | .reset presence => presence = true
  | .writeSlot _ => True
  | .readSlot b => b = false

/-- Where `l` is held low so is `m`, and everything between them read low (R169). -/
def StaysLow (l m : Line) : Prop :=
  l.env = .stuckLow → m.env = .stuckLow ∧
    ∃ acts, m.activity.reverse = l.activity.reverse ++ acts ∧ ∀ a ∈ acts, a.ReadsLow

theorem SamePort.staysLow_made {l m : Line} (h : SamePort l m) (t : Nat) {a : LineActivity}
    (henv : l.env = .stuckLow → m.env = .stuckLow ∧ a.ReadsLow) : StaysLow l (m.made t a) := by
  intro hl
  obtain ⟨hm, ha⟩ := henv hl
  exact ⟨hm, [a], by simp [h.activity], by simpa using ha⟩

theorem holdsOverPrimitives_staysLow : HoldsOverPrimitives StaysLow where
  refl l := fun hl => ⟨hl, [], by simp, by simp⟩
  trans h k := by
    intro hl
    obtain ⟨hm, acts, hacts, hlow⟩ := h hl
    obtain ⟨hn, acts', hacts', hlow'⟩ := k hm
    exact ⟨hn, acts ++ acts', by rw [hacts', hacts, List.append_assoc],
      fun a ha => (List.mem_append.mp ha).elim (hlow a) (hlow' a)⟩
  reset p l := by
    rw [busReset_eq]
    exact (envReset_samePort l).staysLow_made _ fun hl => by simp [envReset, hl, LineActivity.ReadsLow]
  write p b l := by
    rw [lineWriteBit_eq]
    exact (envWrite_samePort p b l).staysLow_made _ fun hl => by simp [envWrite, hl, LineActivity.ReadsLow]
  read p l := by
    rw [lineReadBit_eq]
    exact (envRead_samePort l).staysLow_made _ fun hl => by simp [envRead, hl, LineActivity.ReadsLow]

/-- A line held low has zeros in store (R169). -/
theorem feedsReads_stuckLow (p : Params) :
    FeedsReads p (fun q l => (∀ b ∈ q, b = false) ∧ l.env = .stuckLow) := by
  rintro b q l ⟨hzeros, he⟩
  obtain ⟨hb, hq⟩ := List.forall_mem_cons.1 hzeros
  refine ⟨?zero, hq, ?stays⟩
  case zero => simp [lineReadBit_eq, envRead, he, hb]
  case stays => simp [lineReadBit_eq, envRead, he]

/-- A pass on a line held low makes all 64 positions, each a discrepancy, as its record shows (R123, R169). -/
theorem searchPass_stuckLow {s : State} (he : s.line.env = .stuckLow) (hl : s.ldf = false) :
    let t := searchPass s
    ∃ xs : List Position, xs.length = 64 ∧ (∀ x ∈ xs, x.idBit = false ∧ x.cmpIdBit = false) ∧
      t.line.activity.reverse = s.line.activity.reverse ++ .reset true :: byteSlots s.params.searchRomCode ++
        xs.flatMap Position.activity ∧
      DirectionsFollow s.ld s.rom xs ∧ RomHolds s.rom t.rom xs ∧ IsLastZero t.ld xs ∧ t.ldf = decide (t.ld = 0) ∧
      t.crcOk = romValid t.rom ∧ t.result = true ∧ t.serr = false := by
  intro t
  obtain ⟨-, acts, hacts, hlow⟩ := holdsOverPrimitives_staysLow.searchPass s he
  rcases searchPassFollowsItsLineActivity s with ⟨h, -⟩ | ⟨-, hreset, -⟩ | ⟨-, xs, -, hrecord, -⟩ |
    ⟨-, xs, hlen, hrecord, hdir, hrom, hld, hldf, hcrc, hres, -, hserr⟩
  · simp [hl] at h
  · have habsent : acts = [.reset false] := List.append_cancel_left (hacts.symm.trans (by simp [hreset]))
    exact absurd (hlow (.reset false) (by simp [habsent])) nofun
  · have hones : LineActivity.readSlot true ∈ acts := by
      rw [List.append_assoc, List.append_assoc] at hrecord
      rw [List.append_cancel_left (hacts.symm.trans hrecord)]
      simp
    exact absurd (hlow _ hones) nofun
  · refine ⟨xs, hlen, fun x hx => ?bothZero, hrecord, hdir, hrom, hld, hldf, hcrc, hres, hserr⟩
    have hmem : ∀ a ∈ x.activity, a ∈ acts := by
      intro a ha
      rw [List.append_assoc] at hrecord
      rw [List.append_cancel_left (hacts.symm.trans hrecord)]
      exact List.mem_append_right _ (List.mem_flatMap.mpr ⟨x, hx, ha⟩)
    exact ⟨hlow _ (hmem (.readSlot x.idBit) (by simp [Position.activity])),
      hlow _ (hmem (.readSlot x.cmpIdBit) (by simp [Position.activity]))⟩

/-- From a clear search state every discrepancy is resolved as 0 (R126), so the pass on a line held low finds the
all-zero code and records position 64. -/
theorem searchPass_stuckLow_zeroCode {s : State} (he : s.line.env = .stuckLow) (hl : s.ldf = false) (hld : s.ld = 0) :
    let t := searchPass s
    t.result = true ∧ t.rom = Vector.replicate 8 0x00 ∧ t.crcOk = true ∧ t.ld = 64 ∧ t.ldf = false := by
  intro t
  obtain ⟨xs, hlen, hzero, -, hdir, ⟨hrom, -⟩, ⟨hwhere, hhighest⟩, hldf, hcrc, hres, -⟩ := searchPass_stuckLow he hl
  have hat : ∀ k < 64, ∃ x, xs[k]? = some x ∧ x.idBit = false ∧ x.cmpIdBit = false ∧ x.dir = false := by
    intro k hk
    have hx : xs[k]? = some xs[k] := List.getElem?_eq_getElem (hlen.symm ▸ hk)
    obtain ⟨hid, hcmp⟩ := hzero _ (List.mem_of_getElem? hx)
    obtain ⟨-, -, -, -, habove⟩ := hdir k _ hx
    exact ⟨_, hx, hid, hcmp, habove (hid.trans hcmp.symm) (hld ▸ Nat.succ_pos k)⟩
  have hcode : t.rom = Vector.replicate 8 0x00 := by
    refine romCode_ext fun n h1 h64 => ?_
    obtain ⟨x, hx, -, -, hdir0⟩ := hat (n - 1) (by omega)
    have hbit := hrom (n - 1) x hx
    rw [Nat.sub_add_cancel h1, hdir0] at hbit
    rw [hbit]
    have hbyte : (n - 1) / 8 < 8 := by omega
    simp [romBit, hbyte]
  have hld64 : t.ld = 64 := by
    obtain ⟨x, hx, hid, hcmp, hdir0⟩ := hat 63 (by omega)
    have hle : 63 + 1 ≤ t.ld := hhighest 63 x hx (by simp [Position.zeroTaken, hid, hcmp, hdir0])
    obtain ⟨hge, -⟩ := searchPass_invariants s
    have hge' : t.ld ≤ 64 := hge (by omega)
    omega
  refine ⟨hres, hcode, ?valid, hld64, hldf.trans (by rw [hld64]; rfl)⟩
  case valid => rw [hcrc, hcode]; exact singleBitErrorsAreDetected.2.2

/-- Settles O47: a line held low stays so over every primitive and reads low in each (`StaysLow`); in a pass this leaves
only the complete one, with both reads 0 at each position. -/
theorem stuckLowLineReadsAsTheZeroCode : Obligations.StuckLowLineReadsAsTheZeroCode := by
  intro s he
  have hzeros : ∀ b ∈ byteBits 0x00 ++ [], b = false := by decide
  refine ⟨?busReset, ?readBit, ?readByte, fun hl => ?pass, searchPass_stuckLow_zeroCode (s := s.clearSearch) he rfl rfl⟩
  case busReset => simp [after_busReset_presenceResult, envReset, he]
  case readBit =>
    rw [after_readBit_data, (feedsReads_stuckLow s.params false [] s.line ⟨by simp, he⟩).1]
    rfl
  case readByte => exact ((feedsReads_stuckLow s.params).readByte ⟨hzeros, he⟩).1
  case pass =>
    obtain ⟨xs, hlen, hzero, hrecord, -, -, -, -, -, hres, hserr⟩ := searchPass_stuckLow he hl
    exact ⟨hres, hserr, (holdsOverPrimitives_staysLow.searchPass s he).1, xs, hlen, hzero, hrecord⟩

end Sys2Proof.Machine
end

section
/-! Devices under the slots of a bus (44_bus_environment.md R160 to R164): what each mode sends and how it goes on, and
the addressing of devices by ROM commands (41_byte_transport.md R117). An address is received position by position, so a
device that receives it is told by the count of bits and whether all matched. -/

namespace Sys2Proof.Machine

/-! ### What a device sends -/

/-- Only a selected and an unknown device send freely (R160). -/
theorem Device.sendsFree_iff (d : Device) : d.sendsFree = true ↔ d.mode = .selected ∨ d.mode = .unknown := by
  rw [Device.sendsFree]
  cases d.mode <;> simp

/-- A device leaves the line high unless it is a search candidate whose turn is to send a 0 (R161, R164). -/
theorem Device.level_iff (d : Device) :
    d.level = true ↔ ∀ n, (d.mode = .search n .sendBit true → romBit d.rom n = true) ∧
      (d.mode = .search n .sendCmp true → romBit d.rom n = false) := by
  rw [Device.level]
  rcases d.mode with _ | _ | _ | ⟨n, _ | _ | _, _ | _⟩ | _ | _ | _ <;> simp

/-- The free part of a read slot is one draw where a device sends freely (R164, log entry 15). -/
theorem lineReadBit_free (p : Params) {l : Line} {ds : List Device} (h : l.env = .bus ds)
    (hfree : ∃ d ∈ ds, d.mode = .selected ∨ d.mode = .unknown) :
    (lineReadBit p l).1 = ((nextDraw l).1 && ds.all Device.level) := by
  have hany : ds.any Device.sendsFree = true := by simpa [Device.sendsFree_iff] using hfree
  simp [lineReadBit_eq, envRead, h, freeLevel, hany]

/-! ### Devices that are out of the search -/

/-- The modes of a device that is no candidate any more: in the search without being one, or deselected (R161). -/
def DeviceMode.OutOfSearch (m : DeviceMode) : Prop := m = .deselected ∨ ∃ n ph, m = .search n ph false

theorem DeviceMode.OutOfSearch.silent {m : DeviceMode} (h : m.OutOfSearch) : m.Silent := by
  obtain rfl | ⟨n, ph, rfl⟩ := h
  · exact Or.inr (Or.inl rfl)
  · exact Or.inr (Or.inr (Or.inr (Or.inr (Or.inl ⟨n, ph, rfl⟩))))

/-- A read slot leaves a device that is no candidate in the search without being one (R161). -/
theorem modeAfterRead_noCandidate (n : Nat) (ph : SearchPhase) :
    ∃ m ph', modeAfterRead (.search n ph false) = .search m ph' false := by
  cases ph <;> exact ⟨_, _, rfl⟩

/-- A write slot leaves it there or, after position 64, deselected (R161). -/
theorem modeAfterWrite_noCandidate (p : Params) (rom : RomCode) (b : Bool) (n : Nat) (ph : SearchPhase) :
    (∃ m ph', modeAfterWrite p rom b (.search n ph false) = .search m ph' false) ∨
    modeAfterWrite p rom b (.search n ph false) = .deselected := by
  cases ph with
  | sendBit => exact Or.inl ⟨_, _, rfl⟩
  | sendCmp => exact Or.inl ⟨_, _, rfl⟩
  | recvDir =>
    by_cases hn : n < romBits
    · exact Or.inl ⟨n + 1, .sendBit, by simp [modeAfterWrite, hn]⟩
    · exact Or.inr (by simp [modeAfterWrite, hn])

theorem DeviceMode.OutOfSearch.afterRead {m : DeviceMode} (h : m.OutOfSearch) : (modeAfterRead m).OutOfSearch := by
  obtain rfl | ⟨n, ph, rfl⟩ := h
  · exact Or.inl rfl
  · exact Or.inr (modeAfterRead_noCandidate n ph)

theorem DeviceMode.OutOfSearch.afterWrite {m : DeviceMode} (h : m.OutOfSearch) (p : Params) (rom : RomCode)
    (b : Bool) : (modeAfterWrite p rom b m).OutOfSearch := by
  obtain rfl | ⟨n, ph, rfl⟩ := h
  · exact Or.inl rfl
  · exact (modeAfterWrite_noCandidate p rom b n ph).symm

/-- Whatever slots follow, a device out of the search stays out of it (R161, R163). -/
theorem foldl_slots_outOfSearch (p : Params) (slots : List (Option Bool)) {d : Device} (h : d.mode.OutOfSearch) :
    (slots.foldl (fun e slot => slot.elim e.afterRead (fun v => e.afterWrite p v)) d).mode.OutOfSearch := by
  induction slots generalizing d with
  | nil => exact h
  | cons slot slots ih =>
    cases slot with
    | none => exact ih h.afterRead
    | some v => exact ih (h.afterWrite p d.rom v)

/-- A read slot changes only a device in a search (R161). -/
theorem modeAfterRead_of_not_search {m : DeviceMode} (h : ∀ n ph c, m ≠ .search n ph c) : modeAfterRead m = m := by
  cases m
  case search n ph c => exact absurd rfl (h n ph c)
  all_goals rfl

/-- Settles O33: a slot acts on every device by its mode's rule, and the modes out of the search are closed under both
kinds of slot. -/
theorem busSlotsActOnEveryDevice : Obligations.BusSlotsActOnEveryDevice := by
  intro p l ds b he
  refine ⟨lineWriteBit_bus p b he, lineReadBit_bus p he, fun hds => ?candidates, lineReadBit_free p he,
    fun d n ph hd => ?noCandidate, fun d n c hd => ?waiting, fun d slots hd => ?afterSlots,
    fun r => ⟨rfl, rfl, rfl, rfl⟩, fun m => modeAfterRead_of_not_search⟩
  case candidates =>
    have hfree : ∀ d ∈ ds, d.sendsFree = false := fun d hd => by
      simp [← Bool.not_eq_true, Device.sendsFree_iff, hds d hd]
    rw [lineReadBit_level p he hfree, List.all_eq_true]
    exact forall₂_congr fun d _ => d.level_iff
  case noCandidate =>
    obtain ⟨hfree, hlevel⟩ := Device.silent (DeviceMode.OutOfSearch.silent (Or.inr ⟨n, ph, hd⟩))
    rw [hd]
    exact ⟨hlevel, hfree, modeAfterRead_noCandidate n ph, modeAfterWrite_noCandidate p d.rom b n ph⟩
  case waiting =>
    obtain ⟨hfree, hlevel⟩ := Device.silent (d := d) (by simp [hd])
    exact ⟨hlevel, hfree, by rw [hd]; rfl⟩
  case afterSlots => exact (Device.silent (foldl_slots_outOfSearch p slots hd).silent).symm

/-! ### ROM commands -/

/-- The first byte after a reset is the ROM command of every device (R160, R162). -/
theorem romCommand_bus (p : Params) (v : Byte) {l : Line} {ds : List Device} (h : l.env = .bus ds) :
    (lineWriteByte p v (busReset p l).2).env = .bus (ds.map (fun d => { d with mode := romCommandMode p v })) := by
  rw [lineWriteByte_bus p v (busReset_bus p h).2]
  simp only [List.map_map, Function.comp_def, modeAfterByte_romCmd]

/-- Bytes in a row act on every device one after the other. -/
theorem foldl_lineWriteByte_bus (p : Params) (bs : List Byte) {l : Line} {ds : List Device} (h : l.env = .bus ds) :
    (bs.foldl (fun m v => lineWriteByte p v m) l).env =
      .bus (ds.map (fun d => { d with mode := bs.foldl (fun m v => modeAfterByte p d.rom v m) d.mode })) := by
  induction bs generalizing l ds with
  | nil => simpa using h
  | cons v bs ih => simpa [Function.comp_def] using ih (lineWriteByte_bus p v h)

/-- The mode of a device that has received `k` bits of an address; `ok` tells whether all matched (R160). -/
def addressMode (k : Nat) (ok : Bool) : DeviceMode :=
  if k < romBits then .matchRom k ok else if ok then .selected else .deselected

/-- Each bit of an address is compared with its position of the device's code (R160). -/
theorem modeAfterWrite_addressMode (p : Params) (rom : RomCode) (b : Bool) {k : Nat} (hk : k < 64) (ok : Bool) :
    modeAfterWrite p rom b (addressMode k ok) = addressMode (k + 1) (ok && b == romBit rom (k + 1)) := by
  simp [addressMode, modeAfterWrite, hk]

/-- The last bits of an address are compared with the positions of the device's code from there on. -/
theorem foldl_modeAfterWrite_addressMode (p : Params) (rom : RomCode) (bs : List Bool) (k : Nat) (ok : Bool)
    (h : k + bs.length = 64) :
    bs.foldl (fun m b => modeAfterWrite p rom b m) (addressMode k ok) =
      addressMode 64 (ok && bs == (romKey rom).drop k) := by
  induction bs generalizing k ok with
  | nil =>
    obtain rfl : k = 64 := by simpa using h
    have hnone : (romKey rom).drop 64 = [] := List.drop_of_length_le (by simp)
    simp [hnone]
  | cons b bs ih =>
    rw [List.length_cons] at h
    have hk : k < (romKey rom).length := by rw [romKey_length]; omega
    rw [List.foldl_cons, modeAfterWrite_addressMode p rom b (by omega), ih (k + 1) _ (by omega),
      List.drop_eq_getElem_cons hk, romKey_getElem, List.cons_beq_cons, Bool.and_assoc]

/-- The bytes of a code, byte 0 first and bit 0 first, are its 64 positions in order (R10, R117). -/
theorem flatMap_byteBits (r : RomCode) : r.toList.flatMap byteBits = romKey r := by
  obtain ⟨⟨bytes⟩, h⟩ := r
  match bytes, h with
  | [_, _, _, _, _, _, _, _], _ => rfl

/-- A byte acts on a device bit by bit. -/
theorem modeAfterByte_eq_foldl (p : Params) (rom : RomCode) (v : Byte) (m : DeviceMode) :
    modeAfterByte p rom v m = (byteBits v).foldl (fun m b => modeAfterWrite p rom b m) m := by
  rw [modeAfterByte, byteBits, List.foldl_map]

/-- The eight bytes of a code after MATCH_ROM select the devices with that code and no other (R160). -/
theorem foldl_matchRom (p : Params) (rom r : RomCode) :
    r.toList.foldl (fun m v => modeAfterByte p rom v m) (.matchRom 0 true) =
      if rom = r then .selected else .deselected := by
  have hbits := foldl_modeAfterWrite_addressMode p rom (romKey r) 0 true (by simp)
  simp only [modeAfterByte_eq_foldl, ← List.foldl_flatMap, flatMap_byteBits]
  rw [show DeviceMode.matchRom 0 true = addressMode 0 true from rfl, hbits, addressMode, if_neg (by decide)]
  simp only [Bool.true_and, List.drop_zero, beq_iff_eq, romKey_injective.eq_iff, eq_comm (a := r)]

/-- Settles O34: after a reset the first byte is every device's ROM command, and after MATCH_ROM each device compares
the 64 bits with its code. -/
theorem romCommandsAddressDevices : Obligations.RomCommandsAddressDevices := by
  intro p l ds r hwf he
  simp only [Params.wf, Bool.and_eq_true, bne_iff_ne, ne_eq] at hwf
  obtain ⟨⟨⟨-, hsearchSkip⟩, hsearchMatch⟩, hskipMatch⟩ := hwf
  refine ⟨?skip, ?address, ?search, fun v hskip hmatch hsearch => ?other⟩
  case skip => simp [romCommand_bus p _ he, romCommandMode]
  case address =>
    have hmode : romCommandMode p p.matchRomCode = .matchRom 0 true := by
      simp [romCommandMode, Ne.symm hskipMatch]
    rw [foldl_lineWriteByte_bus p r.toList (romCommand_bus p p.matchRomCode he), hmode]
    simp only [List.map_map, Function.comp_def, foldl_matchRom]
  case search => simp [romCommand_bus p _ he, romCommandMode, hsearchSkip, hsearchMatch]
  case other => simp [romCommand_bus p _ he, romCommandMode, hskip, hmatch, hsearch]

end Sys2Proof.Machine
end

section
/-! SEARCH_FIRST and what STATUS reports of a search (42_rom_search.md R121, R123, R135, R139, 60_exceptions.md R171),
and what no command reads: FILTER and FCTRL, and DATA once the operand is latched (10_state.md R25, R28). -/

namespace Sys2Proof.Machine

/-! ### SEARCH_FIRST -/

/-- A pass that is not exhausted makes a reset first and only adds to the record after it (R125). -/
theorem searchPass_usesTheLine {s : State} (hl : s.ldf = false) :
    .reset (busReset s.params s.line).1 :: s.line.activity <:+ (searchPass s).line.activity := by
  have hreset : s.passReset.line.activity = .reset (busReset s.params s.line).1 :: s.line.activity :=
    (busReset_made s.params s.line).activity
  rw [← hreset]
  rcases searchPass_cases s with ⟨h, -⟩ | ⟨-, -, hpass⟩ | ⟨-, -, hpass⟩
  · simp [hl] at h
  · rw [hpass]
    exact List.suffix_refl _
  · have hstart := holdsOverPrimitives_hasHistory.writeByte s.params s.params.searchRomCode s.passReset.line
    have hloop := holdsOverPrimitives_hasHistory.searchFrom romBits 1 s.passReset.passStart
    rw [hpass]
    exact hstart.1.trans hloop.1

/-- On an empty bus a pass that is not exhausted ends at its reset (R125). -/
theorem searchPass_emptyBus {s : State} (he : s.line.env = .bus []) (hl : s.ldf = false) :
    (searchPass s).result = false ∧ (searchPass s).line.activity = .reset false :: s.line.activity := by
  have habsent : (busReset s.params s.line).1 = false := (busReset_bus s.params he).1
  have hactivity := (busReset_made s.params s.line).activity
  rw [habsent] at hactivity
  rw [searchPass_absent hl habsent]
  exact ⟨rfl, hactivity⟩

/-- With one code there is no discrepancy, so the pass finds that code and no position to go back to (R131). -/
theorem PassFinds.singleton {r t old : RomCode} {ld z : Nat} (h : PassFinds [r] ld old t z) : t = r ∧ z = 0 := by
  refine ⟨List.mem_singleton.mp h.mem, h.lastZero.resolve_right ?_⟩
  rintro ⟨-, -, ⟨⟨a, ha, -, hone⟩, b, hb, -, hzero⟩, -⟩
  rw [List.mem_singleton.mp ha] at hone
  rw [List.mem_singleton.mp hb] at hzero
  exact absurd (hone.symm.trans hzero) nofun

/-- Settles O37: SEARCH_FIRST is one pass from a clear search state, which makes a reset; where nobody is present that
is all, and one device leaves no discrepancy. -/
theorem searchFirstStartsAnEnumeration : Obligations.SearchFirstStartsAnEnumeration := by
  refine ⟨rfl, exec_eq_overhead .searchFirst, fun s hsame => ?usesTheLine,
    fun s he => searchPass_emptyBus (s := s.clearSearch) he rfl, fun s d he hwf => ?oneDevice, by decide +kernel⟩
  case usesTheLine =>
    have hlonger := (searchPass_usesTheLine (s := s.clearSearch) rfl).length_le
    have hsame' : (searchPass s.clearSearch).line.activity = s.line.activity := hsame
    rw [hsame'] at hlonger
    exact absurd hlonger (Nat.not_succ_le_self _)
  case oneDevice =>
    have hfound := after_searchFirst_foundCode hwf he (List.cons_ne_nil d [])
    obtain ⟨hrom, hld⟩ := PassFinds.singleton (r := d.rom) hfound.finds
    exact ⟨hfound.result, hrom, by rw [hfound.crcOk, hrom], hld, by rw [hfound.ldf, hld]; rfl⟩

/-- Settles O46: the code found is one of the devices', and none comes before it in tree order. -/
theorem searchFirstFindsTheFirstCode : Obligations.SearchFirstFindsTheFirstCode := by
  intro s ds hwf he hne
  have hfinds := (after_searchFirst_foundCode hwf he hne).finds
  refine ⟨List.mem_map.mp hfinds.mem, fun d hd => ?_⟩
  have hleast := not_lt.mp (hfinds.first (List.mem_map_of_mem hd))
  exact hleast.eq_or_lt.imp_left fun hkey => (romKey_injective hkey).symm

/-! ### What STATUS reports -/

/-- The four ends of a search pass, by the flags and by the last records on the line (R123, R135). -/
theorem searchPass_ends (s : State) :
    let t := searchPass s
    (s.ldf = true ∧ t.result = false ∧ t.ldf = true) ∨
    (s.ldf = false ∧ t.line.activity = .reset false :: s.line.activity ∧ t.result = false ∧ t.ldf = false ∧
      t.serr = false) ∨
    (s.ldf = false ∧ (∃ acts, t.line.activity = .readSlot true :: .readSlot true :: acts) ∧ t.result = false ∧
      t.ldf = false ∧ t.serr = true) ∨
    (s.ldf = false ∧ (∃ d acts, t.line.activity = .writeSlot d :: acts) ∧ t.result = true ∧
      t.crcOk = romValid t.rom) := by
  intro t
  rcases searchPass_cases s with ⟨hl, hpass⟩ | ⟨hl, hp, hpass⟩ | ⟨hl, hp, -⟩
  · rw [show t = s.passExhausted from hpass]
    exact Or.inl ⟨hl, rfl, hl⟩
  · have hactivity := (busReset_made s.params s.line).activity
    rw [hp] at hactivity
    rw [show t = s.passReset.passNoPresence from hpass]
    exact Or.inr (Or.inl ⟨hl, hactivity, rfl, rfl, rfl⟩)
  · obtain ⟨xs, -, -, -, ⟨-, hmade, -, hldf, hserr, -, hres⟩ | ⟨hlen, hmade, -, -, -, hcrc, hres⟩⟩ :=
      searchPass_effect s hl hp
    · have hactivity := hmade.activity
      rw [List.reverse_append] at hactivity
      exact Or.inr (Or.inr (Or.inl ⟨hl, ⟨_, hactivity⟩, hres, hldf, hserr⟩))
    · have hne : xs ≠ [] := by rintro rfl; exact absurd hlen (by decide)
      obtain ⟨ys, y, rfl⟩ := xs.eq_nil_or_concat'.resolve_left hne
      have hactivity := hmade.activity
      rw [List.flatMap_append, List.reverse_append] at hactivity
      exact Or.inr (Or.inr (Or.inr ⟨hl, ⟨y.dir, _, hactivity⟩, hres, hcrc⟩))

/-- Settles O40: the four ends of a pass leave different flags, and different last records on the line. -/
theorem statusReportsTheSearchOutcome : Obligations.StatusReportsTheSearchOutcome := by
  intro s t
  have ht : t = (searchPass s).complete := after_eq .searchNext s
  rcases searchPass_ends s with ⟨hl, hres, hldf⟩ | ⟨hl, hact, hres, hldf, hserr⟩ |
    ⟨hl, ⟨acts, hact⟩, hres, hldf, hserr⟩ | ⟨hl, ⟨d, acts, hact⟩, hres, hcrc⟩
  · simp [State.searchReport, ht, hl, hres, hldf]
  · simp [State.searchReport, ht, hl, hres, hldf, hserr, hact]
  · simp [State.searchReport, ht, hl, hres, hldf, hserr, hact]
  · cases hvalid : romValid (searchPass s).rom <;> simp [State.searchReport, ht, hl, hres, hcrc, hact, hvalid]

/-! ### What no command reads -/

/-- The registers the host writes by itself, replaced. -/
def State.setHostRegs (s : State) (d f : Byte) (e : Bool) : State := { s with data := d, filter := f, filterEn := e }

section

variable (d f : Byte) (e : Bool)

theorem searchFrom_setHostRegs (k n : Nat) (s : State) :
    searchFrom k n (s.setHostRegs d f e) = (searchFrom k n s).setHostRegs d f e := by
  induction k generalizing n s with
  | zero => rfl
  | succ k ih =>
    rw [searchFrom, searchFrom]
    show (if ((s.readPair n).pass.idBit && (s.readPair n).pass.cmpIdBit) = true then
      (s.readPair n).passDataError.setHostRegs d f e
      else searchFrom k (n + 1) (((s.readPair n).takeBranch n).setHostRegs d f e)) = _
    rw [ih]
    split <;> rfl

theorem searchPass_setHostRegs (s : State) :
    searchPass (s.setHostRegs d f e) = (searchPass s).setHostRegs d f e := by
  rcases searchPass_cases s with ⟨hl, hpass⟩ | ⟨hl, hp, hpass⟩ | ⟨hl, hp, hpass⟩ <;> rw [hpass]
  · exact searchPass_exhausted (s := s.setHostRegs d f e) hl
  · exact searchPass_absent (s := s.setHostRegs d f e) hl hp
  · exact (searchPass_present (s := s.setHostRegs d f e) hl hp).trans
      (searchFrom_setHostRegs d f e romBits 1 s.passReset.passStart)

/-- With the same operand other values of DATA, FILTER and FCTRL change nothing of a command but a DATA that it does not
write (R25, R28). -/
theorem effect_setHostRegs (i : Instr) {s : State} (hop : (s.setHostRegs d f e).operand = s.operand) :
    effect i (s.setHostRegs d f e) =
      (effect i s).setHostRegs (if i = .readBit ∨ i = .readByte then (effect i s).data else d) f e := by
  cases i
  case writeBit | writeByte | crcUpdate =>
    simp only [effect, State.operandBit, hop]
    rfl
  case searchFirst => exact searchPass_setHostRegs d f e s.clearSearch
  case searchNext => exact searchPass_setHostRegs d f e s
  all_goals rfl

end

/-- Settles O41: the operand is the same under any FILTER and FCTRL, so these only stand beside the effect. -/
theorem filterNeverAffectsACommand : Obligations.FilterNeverAffectsACommand := by
  intro i s f e
  refine ⟨_, exec_eq i s, ?_⟩
  have hdata : (if i = .readBit ∨ i = .readByte then (effect i s).data else s.data) = (effect i s).data := by
    split
    · rfl
    · rename_i hread
      exact (effect_data (fun h => hread (Or.inl h)) (fun h => hread (Or.inr h)) s).symm
  show exec i (s.setHostRegs s.data f e) = _
  rw [exec_eq, effect_setHostRegs s.data f e i rfl, hdata]
  rfl

/-- Settles O42: with a command pending the operand is the latched byte, whatever DATA is (R35). -/
theorem operandIsLatchedAtAcceptance : Obligations.OperandIsLatchedAtAcceptance := by
  intro i s p d hp
  refine ⟨_, exec_eq i s, ?_⟩
  have hop : (s.setHostRegs d s.filter s.filterEn).operand = s.operand :=
    (State.operand_pending (s := s.setHostRegs d s.filter s.filterEn) hp).trans (State.operand_pending hp).symm
  obtain ⟨hfilter, hfilterEn, -, -⟩ := effect_hostRegisters i s
  show exec i (s.setHostRegs d s.filter s.filterEn) = _
  rw [exec_eq, effect_setHostRegs d s.filter s.filterEn i hop, ← hfilter, ← hfilterEn]
  rfl

end Sys2Proof.Machine
end

section
/-! The opcode map word by word (30_encoding.md R65 to R71), the register map and the reads of the host (10_state.md R21
to R31, R47, 20_memory.md R50, R56). -/

namespace Sys2Proof.Machine

/-! ### Command words -/

/-- The codes above 9 are reserved (R67). -/
theorem decodeOp_reserved {op : BitVec 4} (h : 10 ≤ op.toNat) : decodeOp op = .error .reservedOp := by
  have hlt := op.isLt
  unfold decodeOp
  interval_cases op.toNat <;> rfl

/-- The fields of a command byte as numbers (R65). -/
theorem toNat_fields (v : Byte) :
    (v.extractLsb' 4 4).toNat = v.toNat / 16 ∧ (v.extractLsb' 0 4).toNat = v.toNat % 16 := by
  have hlt := v.isLt
  simp only [BitVec.extractLsb'_toNat, Nat.shiftRight_eq_div_pow]
  omega

/-- Settles O2: the ten words decode one by one; above them Z is 0 and OP reserved, and from 0x10 on Z is not 0. -/
theorem commandWordsDecodeAsTheOpcodeMap : Obligations.CommandWordsDecodeAsTheOpcodeMap := by
  refine ⟨rfl, rfl, rfl, rfl, rfl, rfl, rfl, rfl, rfl, rfl, fun v hlow hhigh => ?reserved, fun v hhigh => ?illegal⟩
  all_goals obtain ⟨hz, hop⟩ := toNat_fields v
  case reserved =>
    have hz0 : v.extractLsb' 4 4 = 0#4 := BitVec.eq_of_toNat_eq (by rw [hz, BitVec.toNat_ofNat]; omega)
    rw [decode, if_pos hz0, decodeOp_reserved (by omega)]
  case illegal =>
    have hz0 : v.extractLsb' 4 4 ≠ 0#4 := fun h0 => by
      rw [h0, BitVec.toNat_ofNat] at hz
      omega
    rw [decode, if_neg hz0]

/-- Settles O3: the decoder inverts the encoder, a byte that decodes is the encoding of its command, and the check on
command bytes is the decode rule. -/
theorem encodeAndDecodeAgree : Obligations.EncodeAndDecodeAgree := by
  refine ⟨decode_encode, fun v i => encode_of_decode, fun v => ?legal⟩
  case legal =>
    have hwf : commandByteWf v = true ↔ ∃ i, decode v = .ok i := by
      rw [decode_ok_iff]
      simp [commandByteWf]
    rw [hwf]
    exact exists_congr fun i => ⟨encode_of_decode, fun h => h ▸ decode_encode i⟩

/-! ### The register map -/

/-- Every offset is the offset of its register (R21). -/
theorem offset_regAt : ∀ off : Offset, (regAt off).offset = off := by decide

/-- Every register is at its offset (R21). -/
theorem regAt_offset (r : Reg) : regAt r.offset = r := by
  cases r
  case rom k => revert k; decide
  all_goals rfl

/-- Settles O15: registers and offsets determine each other, and the block's addresses are the base with an offset. -/
theorem everyOffsetIsOneRegister : Obligations.EveryOffsetIsOneRegister :=
  ⟨⟨rfl, rfl, rfl, rfl, rfl, rfl, rfl, rfl, fun k => regAt_offset (.rom k)⟩, offset_regAt, regAt_offset,
    hostOffset_base_add, hostOffset_isSome_iff⟩

/-! ### STATUS and the reads of the host -/

/-- STATUS bit by bit (R23). -/
theorem State.getLsbD_statusByte (s : State) (k : Nat) :
    s.statusByte.getLsbD k =
      ((s.busy && decide (k = 0)) || (s.presence && decide (k = 1)) || (s.result && decide (k = 2)) ||
        (s.crcOk && decide (k = 3)) || (s.ldf && decide (k = 4)) || (s.famMatch && decide (k = 5)) ||
        (s.serr && decide (k = 6))) := by
  simp only [State.statusByte, BitVec.getLsbD_or, getLsbD_flagAt, Nat.reduceLT]

/-- FAM_MATCH is 1 with FILTER off or a family code equal to FILTER (R39). -/
theorem State.famMatch_eq (s : State) :
    s.famMatch = (decide (s.filterEn = false) || decide (s.rom[0] = s.filter)) := by
  rw [State.famMatch, Bool.eq_iff_iff]
  simp

/-- Settles O16: each flag stands at its own bit, and none at bit 7. -/
theorem statusBitsAreAsListed : Obligations.StatusBitsAreAsListed := by
  intro s
  simp only [State.getLsbD_statusByte, State.famMatch_eq]
  simp [State.busy]

/-- While BUSY a register reads as R47 says, with the next free byte where it fixes no value. -/
theorem State.readValue_busy {s : State} (hp : s.pending ≠ none) (r : Reg) :
    s.readValue r = s.busyRegValue (Config.freeByte s.readDraws) r := by
  rw [State.readValue, if_pos (State.busy_iff.mpr hp)]

/-- A read while BUSY uses up one free byte (R47); a read while idle none. -/
theorem State.hostRead_busy {s : State} (hp : s.pending ≠ none) (r : Reg) :
    s.hostRead r = { s with responses := s.readValue r :: s.responses, readDraws := s.readDraws + 1 } := by
  rw [State.hostRead, if_pos (State.busy_iff.mpr hp)]

theorem State.hostRead_idle {s : State} (hp : s.pending = none) (r : Reg) :
    s.hostRead r = { s with responses := s.readValue r :: s.responses } := by
  rw [State.hostRead, if_neg fun hbusy => State.busy_iff.mp hbusy hp]

/-- The bits 6:1 of STATUS while BUSY are free, beside BUSY = 1 and the reserved bit (R47). -/
theorem getLsbD_busyStatusByte (free : Byte) :
    (busyStatusByte free).getLsbD 0 = true ∧ (busyStatusByte free).getLsbD 7 = false ∧
    ∀ k, 1 ≤ k → k ≤ 6 → (busyStatusByte free).getLsbD k = free.getLsbD k := by
  refine ⟨by simp [busyStatusByte], by simp [busyStatusByte], fun k h1 h6 => ?_⟩
  interval_cases k <;> simp [busyStatusByte]

/-- Settles O13: while BUSY a read is the value R47 gives with the next free byte. -/
theorem readsWhileBusyAreFree : Obligations.ReadsWhileBusyAreFree := by
  intro s hp
  have hread := State.readValue_busy hp
  obtain ⟨hbusy, hreserved, hfree⟩ := getLsbD_busyStatusByte (Config.freeByte s.readDraws)
  refine ⟨hread .cmd, hread .filter, ?fctrl, ?illcmd, ?overrun, hread .status ▸ hbusy, hread .status ▸ hreserved,
    hread .status ▸ hfree, fun r hr => ?freeDraw, State.hostRead_busy hp⟩
  case fctrl => simp [State.getLsbD_fctrlByte, -BitVec.getLsbD_eq_getElem]
  case illcmd => simp [State.getLsbD_errByte, -BitVec.getLsbD_eq_getElem]
  case overrun => simp [State.getLsbD_errByte, -BitVec.getLsbD_eq_getElem]
  case freeDraw => obtain rfl | rfl | rfl | ⟨k, rfl⟩ := hr <;> exact hread _

/-- FCTRL reads back bit 0 of what was written (R28). -/
theorem flagAt_zero_getLsbD (v : Byte) : flagAt 0 (v.getLsbD 0) = v &&& 0x01 := by
  apply BitVec.eq_of_getLsbD_eq
  intro k hk
  rw [getLsbD_flagAt (by decide)]
  interval_cases k <;> simp

/-- Settles O12: while idle a read is the register, and a write of DATA, FILTER or FCTRL is the register effect. -/
theorem writableRegistersReadBack : Obligations.WritableRegistersReadBack := by
  refine ⟨fun s hp => ?reads, fun s v hp hr => ?readBack⟩
  case reads =>
    have hread : ∀ r, s.readValue r = s.regValue r := State.readValue_idle hp
    exact ⟨hread .cmd, hread .status, hread .data, hread .ld, hread .filter, hread .fctrl, hread .crc, hread .err,
      fun k => hread (.rom k)⟩
  case readBack =>
    have hwrite : ∀ r, s.hostWrite r v = s.regWrite r v := fun r => State.hostWrite_idle hr hp r v
    rw [hwrite, hwrite, hwrite]
    refine ⟨rfl, ?data, rfl, ?filter, rfl, ?fctrl⟩
    case data => exact State.readValue_idle (s := s.regWrite .data v) hp .data
    case filter => exact State.readValue_idle (s := s.regWrite .filter v) hp .filter
    case fctrl => exact (State.readValue_fctrl _).trans (flagAt_zero_getLsbD v)

/-- Settles O14: a read leaves the value with the host and, while idle, nothing that the next read depends on. -/
theorem hostReadsHaveNoSideEffect : Obligations.HostReadsHaveNoSideEffect := by
  intro s off rest hi
  refine ⟨_, step_read_inside hi, rfl, fun hp => ?idle⟩
  case idle =>
    rw [State.hostRead_idle hp]
    refine ⟨rfl, ?_⟩
    rw [State.readValue_idle hp]
    exact State.readValue_idle (s := State.setInputs { s with responses := _ } rest) hp (regAt off)

end Sys2Proof.Machine
end

section
/-! The block reset as an input (70_reset_and_hazards.md R190, R192), the waveforms (40_line_driver.md R88 to R91) and
the changes of the environment from outside (44_bus_environment.md R159). -/

namespace Sys2Proof.Machine

/-- The step of the reset input is the reset input's level. -/
theorem step_resetLine {s : State} {a : Bool} {rest : List Input} (h : s.inputs = .resetLine a :: rest) :
    step s = .next ((s.setResetPin a).setInputs rest) :=
  step_input h

/-- The reset reaches no device where no command was in progress (R192). -/
theorem Line.blockReset_env_idle (l : Line) : (l.blockReset false).env = l.env := rfl

/-- A reset during a command leaves every device on a bus unknown (R192). -/
theorem Line.blockReset_env_bus {l : Line} {ds : List Device} (h : l.env = .bus ds) :
    (l.blockReset true).env = .bus (ds.map (fun d => { d with mode := .unknown })) := by
  show l.env.afterLostSession = _
  rw [h]
  rfl

/-- Settles O18: the reset input resets the block unless it stays released; the line's past is kept, and the devices are
unknown exactly when a command was in progress. -/
theorem blockResetRestoresEveryElement : Obligations.BlockResetRestoresEveryElement := by
  refine ⟨fun s rest hr hi => ?staysReleased, fun s a rest hmoves hi => ?moves⟩
  case staysReleased => rw [step_resetLine hi, State.setResetPin_stays hr]; rfl
  case moves =>
    have hset : s.setResetPin a = { s.blockReset with resetPin := a } := by
      rcases s.setResetPin_cases a with ⟨-, hset⟩ | ⟨hlow, hreleased, -⟩
      · exact hset
      · simp [hlow, hreleased] at hmoves
    have hvalues := (State.setResetPin_atResetValues hmoves).congr_outside rest (s.setResetPin a).responses
      (s.setResetPin a).readDraws (s.setResetPin a).line.env
    refine ⟨_, step_resetLine hi, hvalues, ?_⟩
    rw [hset]
    refine ⟨rfl, rfl, rfl, rfl, rfl, rfl, fun hp => ?idle, fun hp ds he => ?duringCommand⟩
    case idle =>
      have hidle : s.busy = false := by simp [State.busy, hp]
      show (s.line.blockReset s.busy).env = s.line.env
      rw [hidle, Line.blockReset_env_idle]
    case duringCommand =>
      show (s.line.blockReset s.busy).env = _
      rw [State.busy_iff.mpr hp, Line.blockReset_env_bus he]

/-- Settles O19: in reset a host write and a turn of the block do nothing, and asserting the input resets the block. -/
theorem assertedResetHoldsTheBlock : Obligations.AssertedResetHoldsTheBlock := by
  intro s hr
  refine ⟨State.hostWrite_inReset hr, fun hi => ?noInput, fun rest hi => ?turn,
    State.setResetPin_atResetValues (.inl rfl), rfl⟩
  case noInput => rw [step_noInput hi, blockTurn_inReset hr]
  case turn => exact (step_input hi).trans (blockTurn_inReset (s := s.setInputs rest) hr)

/-- Settles O20: the waveforms are written out in the model as in the spec. -/
theorem waveformsAreAsListed : Obligations.WaveformsAreAsListed :=
  fun _ => ⟨rfl, rfl, rfl, rfl⟩

/-! ### Changes of the environment -/

/-- A device on a bus that the outside has changed is new and idle, or it stood on the bus before (R159). -/
theorem Env.mem_of_change {e : Env} {c : EnvChange} {ds : List Device} (h : e.change c = .bus ds) {d : Device}
    (hd : d ∈ ds) : d.mode = .idle ∨ ∃ es, e = .bus es ∧ d ∈ es := by
  cases c with
  | oracle => cases h
  | loopback => cases h
  | stuckLow => cases h
  | bus roms =>
    cases h
    obtain ⟨rom, -, rfl⟩ := List.mem_map.mp hd
    exact Or.inl rfl
  | join rom =>
    cases e with
    | bus es =>
      cases h
      rcases List.mem_append.mp hd with hold | hnew
      · exact Or.inr ⟨es, rfl, hold⟩
      · rw [List.mem_singleton.mp hnew]; exact Or.inl rfl
    | oracle => cases h
    | loopback q => cases h
    | stuckLow => cases h
  | leave i =>
    cases e with
    | bus es =>
      cases h
      exact Or.inr ⟨es, rfl, List.mem_of_mem_eraseIdx hd⟩
    | oracle => cases h
    | loopback q => cases h
    | stuckLow => cases h

/-- Settles O60: a device that comes is idle, the others keep their place and session, and the step changes the
environment and takes the input. -/
theorem newDevicesStartIdle : Obligations.NewDevicesStartIdle := by
  refine ⟨fun _ => rfl, fun s c rest hi => step_input hi, fun _ _ => rfl, fun _ _ => rfl, fun ds es d => ?leave,
    fun e c ds h d hd => Env.mem_of_change h hd⟩
  case leave => simp [Env.change, List.eraseIdx_append_of_length_le]

end Sys2Proof.Machine
end
